-- ==== Sys2Proof/Word.lean ====
section
/-! DEFINITION. The machine's words: the byte and the 32-bit register (R13, R21). -/

namespace Sys2Proof

/-- A byte, an unsigned value 0 to 255 (R13). -/
abbrev Byte := BitVec 8

/-- A 32-bit register's contents (R21). -/
abbrev Word32 := BitVec 32

end Sys2Proof
end

