-- ==== Sys2Proof/Syntax.lean ====
section
/-! DEFINITION. The commands: one constructor per row of `spec/opcode_table.json` (R85). A command word
has no operand field (R84), so no constructor has an argument. -/

namespace Sys2Proof

/-- The nine commands (R85). -/
inductive Instr where
  /-- `PLOAD`, code `0x01`: load the payload container (R100). -/
  | pload
  /-- `DEVCHK`, code `0x02`: device identifier validity (R101). -/
  | devchk
  /-- `CRC16`, code `0x03`: the checksum of slice A (R111). -/
  | crc16
  /-- `STUFF`, code `0x04`: stuff slice A into slice B (R115). -/
  | stuff
  /-- `UNSTUFF`, code `0x05`: unstuff slice A in place (R118). -/
  | unstuff
  /-- `ENCSIZE`, code `0x06`: the slice length `ENCODE` needs (R132). -/
  | encsize
  /-- `ENCODE`, code `0x07`: the wire frame of the packet register (R133). -/
  | encode
  /-- `DECODE1`, code `0x08`: decode one frame (R153). -/
  | decode1
  /-- `DECODES`, code `0x09`: decode a stream (R171). -/
  | decodes
  deriving DecidableEq, Repr

end Sys2Proof
end

