-- ==== Sys2Proof/WellFormed.lean ====
section
/-! DEFINITION. Which command words name a command, and which instructions are well formed. -/

namespace Sys2Proof

/-- A command code that selects a command: `0x01` to `0x09`; `0x00` and `0x0A` to `0xFF` are reserved
(R86). -/
def codeAssigned (c : Byte) : Bool := 1 ≤ c.toNat && c.toNat ≤ 9

/-- Every instruction is well formed: none has an operand field that could hold a bad value (R84). -/
def Instr.wellFormed : Instr → Bool
  | .pload => true
  | .devchk => true
  | .crc16 => true
  | .stuff => true
  | .unstuff => true
  | .encsize => true
  | .encode => true
  | .decode1 => true
  | .decodes => true

end Sys2Proof
end

