-- ==== Sys2Proof/Decode.lean ====
section
/-! DEFINITION. The command word (R84 to R86): from the byte written to `CMD` to the command, and back. -/

namespace Sys2Proof

/-- Why a byte is no command. -/
inductive DecodeError where
  /-- `0x00` and `0x0A` to `0xFF` select no command (R86). -/
  | reservedCode (code : Byte)
  deriving DecidableEq, Repr

/-- The command a byte selects (R85); every other byte is a reserved code (R86). -/
def decode (code : Byte) : Except DecodeError Instr :=
  match code.toNat with
  | 0x01 => .ok .pload
  | 0x02 => .ok .devchk
  | 0x03 => .ok .crc16
  | 0x04 => .ok .stuff
  | 0x05 => .ok .unstuff
  | 0x06 => .ok .encsize
  | 0x07 => .ok .encode
  | 0x08 => .ok .decode1
  | 0x09 => .ok .decodes
  | _ => .error (.reservedCode code)

/-- The code of a command (R85). -/
def encode : Instr → Byte
  | .pload => 0x01#8
  | .devchk => 0x02#8
  | .crc16 => 0x03#8
  | .stuff => 0x04#8
  | .unstuff => 0x05#8
  | .encsize => 0x06#8
  | .encode => 0x07#8
  | .decode1 => 0x08#8
  | .decodes => 0x09#8

/-- The command word given as a number of `nbits` bits: `CMD` keeps its low 8 bits (R37, R84). -/
def commandWord (nbits w : Nat) : Byte := BitVec.ofNat 8 (w % 2 ^ nbits)

/-- The command the decoder reads from a word of `spec/opcode_table.json`. -/
def decodeTableWord (nbits w : Nat) : Option Instr :=
  match decode (commandWord nbits w) with
  | .ok i => some i
  | .error _ => none

end Sys2Proof
end

