-- ==== Sys2Proof/Machine/Flags.lean ====
section
/-! DEFINITION. The only condition state there is (R26, R33): the result code a command leaves in
`STATUS`, and the two information fields of each error (R186). -/

namespace Sys2Proof.Machine

/-- The typed errors (R186), with the fields the source gives them. -/
inductive CmdError where
  /-- The byte-stuffing could not be inverted (R187). -/
  | framingError
  /-- The unstuffed frame has `len < 13` bytes (R188). -/
  | bufferTooShort (len : Nat)
  /-- Byte 0 of the frame is `found`, not `VERSION` (R189). -/
  | unsupportedVersion (found : Byte)
  /-- The recomputed checksum is `expected`, the embedded one `found` (R190). -/
  | invalidChecksum (expected found : BitVec 16)
  /-- The frame's size implies `expected` payload bytes, its length byte says `found` (R191). -/
  | invalidLength (expected : Nat) (found : Byte)
  /-- The device code is not assigned (R192). -/
  | invalidId (code : Byte)
  /-- `PLOAD` of `len > 255` bytes (R193). -/
  | payloadTooLong (len : Nat)
  /-- The destination slice is too small (R194). -/
  | bufferTooSmall (required available : Nat)
  /-- An operand the source's types cannot express, with its sub-code 1 to 6 (R195). -/
  | operandError (subCode : Nat)
  deriving DecidableEq, Repr

/-- The code of an error in `STATUS` (R186). -/
def errorCode : CmdError → Byte
  | .framingError => 1#8
  | .bufferTooShort _ => 2#8
  | .unsupportedVersion _ => 3#8
  | .invalidChecksum _ _ => 4#8
  | .invalidLength _ _ => 5#8
  | .invalidId _ => 6#8
  | .payloadTooLong _ => 7#8
  | .bufferTooSmall _ _ => 8#8
  | .operandError _ => 15#8

/-- The first information field, for `E_A` (R186). -/
def errorInfoA : CmdError → Word32
  | .framingError => 0#32
  | .bufferTooShort len => BitVec.ofNat 32 len
  | .unsupportedVersion found => found.setWidth 32
  | .invalidChecksum expected _ => expected.setWidth 32
  | .invalidLength expected _ => BitVec.ofNat 32 expected
  | .invalidId code => code.setWidth 32
  | .payloadTooLong len => BitVec.ofNat 32 len
  | .bufferTooSmall required _ => BitVec.ofNat 32 required
  | .operandError subCode => BitVec.ofNat 32 subCode

/-- The second information field, for `E_B`; 0 where the error has fewer (R186). -/
def errorInfoB : CmdError → Word32
  | .framingError => 0#32
  | .bufferTooShort _ => 0#32
  | .unsupportedVersion _ => 0#32
  | .invalidChecksum _ found => found.setWidth 32
  | .invalidLength _ found => found.setWidth 32
  | .invalidId _ => 0#32
  | .payloadTooLong _ => 0#32
  | .bufferTooSmall _ available => BitVec.ofNat 32 available
  | .operandError _ => 0#32

/-- A value `STATUS` can hold: codes 9 to 14 are never produced and bits 7 to 4 are 0 (R26, R186). -/
def statusLegal (v : Byte) : Bool := v.toNat ≤ 8 || v.toNat == 15

end Sys2Proof.Machine
end

