-- ==== Sys2Proof/Config.lean ====
section
/-! DEFINITION. What an implementation fixes and the free values: the constants the source leaves
open (R10, R11), the checksum function (R110), the `ANY` draws (R16) and the contents of the
memories after reset (R38). The `opaque` constants have no body: nothing in Lean knows a value of
theirs, so a theorem about the machine holds for every value of them. -/

namespace Sys2Proof

/-- The constants one ZBSF is made with (R10, R11, R35): plain data, so they stand in State, where no
step writes them (log 2). The two sizes are held as the last address, which bounds them as R11 does. -/
structure Chip where
  /-- The parameter `VERSION` (R10). -/
  version : BitVec 8
  /-- The parameter `DEVID_31_ASSIGNED` (R10). -/
  devid31 : Bool
  /-- The last address of `BUF`: `BUF_CAP - 1` (R30). -/
  bufTop : BitVec 31
  /-- The last slot of `OUT`: `OUT_SLOTS - 1` (R31). -/
  outTop : BitVec 31
  deriving DecidableEq, Repr, Inhabited

/-- `BUF_CAP`, from 1 to `2^31` (R11). -/
def Chip.bufCap (c : Chip) : Nat := c.bufTop.toNat + 1

/-- `OUT_SLOTS`, from 1 to `2^31` (R11). -/
def Chip.outSlots (c : Chip) : Nat := c.outTop.toNat + 1

/-- The name of a memory cell whose contents after reset the spec leaves `ANY` (R38). -/
inductive CellName where
  | buf (addr : Nat)
  | pld (addr : Nat)
  | outKind (slot : Nat)
  | outDev (slot : Nat)
  | outTs (slot : Nat)
  | outPlen (slot : Nat)
  | outPayload (slot addr : Nat)
  deriving DecidableEq, Repr

/-- What the model leaves uninterpreted and takes as an argument: the checksum and the free values. -/
structure Env where
  /-- `CRC16_FN` (R110). -/
  crc16 : List Byte → BitVec 16
  /-- The `n`-th draw of `ANY` (R16); a draw of width `w` is its low `w` bits. -/
  anyBits : Nat → BitVec 64
  /-- What a cell holds after the `k`-th reset event (R38); a cell of width `w` takes the low `w` bits. -/
  powerUp : Nat → CellName → BitVec 64

namespace Config

/-- The constants of the machine the model is about: any (R10, R11). DESIGN CHOICE, safe (log 2). -/
opaque chip : Chip

/-- `CRC16_FN`: any function of the bytes (R110). Safe (log 5). -/
opaque crc16 : List Byte → BitVec 16

/-- The `ANY` draws (R16). Safe (log 4). -/
opaque anyBits : Nat → BitVec 64

/-- The contents of `BUF`, `PLD` and `OUT` after a reset (R38). Safe (log 3). -/
opaque powerUp : Nat → CellName → BitVec 64

/-- The machine's own checksum and free values. -/
def env : Env := { crc16 := crc16, anyBits := anyBits, powerUp := powerUp }

end Config

end Sys2Proof
end

