-- ==== Sys2Proof/Machine/Operands.lean ====
section
/-! DEFINITION. The operands of commands and the fields of frames: slices, device codes, byte order,
the control byte. -/

namespace Sys2Proof.Machine

/-- A slice is admissible when it ends inside `BUF`, the sum taken without wrap (R51, R195). -/
def admissible (c : Chip) (off len : Word32) : Bool := off.toNat + len.toNat ≤ c.bufCap

/-- Two slices overlap when both are non-empty and each begins before the other ends (R115). -/
def overlap (aOff aLen bOff bLen : Word32) : Bool :=
  0 < aLen.toNat && 0 < bLen.toNat
    && aOff.toNat < bOff.toNat + bLen.toNat && bOff.toNat < aOff.toNat + aLen.toNat

/-- `DEVID_ASSIGNED`, on every 8-bit value (R102). -/
def devAssigned (c : Chip) (d : Byte) : Bool :=
  if d.toNat ≤ 15 then true
  else if d.toNat ≤ 30 then false
  else if d.toNat = 31 then c.devid31
  else false

/-- `le16`: the two bytes of a 16-bit value, low byte first (R14). -/
def le16 (v : BitVec 16) : List Byte := [v.extractLsb' 0 8, v.extractLsb' 8 8]

/-- `le64`: the eight bytes of a 64-bit value, low byte first (R14). -/
def le64 (v : BitVec 64) : List Byte :=
  [v.extractLsb' 0 8, v.extractLsb' 8 8, v.extractLsb' 16 8, v.extractLsb' 24 8,
   v.extractLsb' 32 8, v.extractLsb' 40 8, v.extractLsb' 48 8, v.extractLsb' 56 8]

/-- `from_le`: the number whose bytes are given low byte first (R14). -/
def fromLe : List Byte → Nat
  | [] => 0
  | b :: bs => b.toNat + 256 * fromLe bs

/-- The control byte: direction in bit 7, device code in bits 6 to 2, bits 1 to 0 zero (R74, R87). -/
def controlByte (kind : BitVec 1) (dev : BitVec 5) : Byte := kind ++ dev ++ 0#2

/-- The direction a control byte carries, its bit 7 (R74). -/
def controlKind (c : Byte) : BitVec 1 := c.extractLsb' 7 1

/-- The device code a control byte carries, its bits 6 to 2; bits 1 to 0 are ignored (R74, R87). -/
def controlDev (c : Byte) : BitVec 5 := c.extractLsb' 2 5

/-- `find_zero`, counted from the start of the bytes given: where the first zero byte is (R14). -/
def findZero : List Byte → Option Nat
  | [] => none
  | b :: bs => if b = 0#8 then some 0 else (findZero bs).map (· + 1)

end Sys2Proof.Machine
end

