-- ==== Sys2Proof/Machine/State.lean ====
section
/-! DEFINITION. The machine's state as plain data, its reasons to stop, and the state after reset. -/

namespace Sys2Proof.Machine

/-- The 18 registers by name (R21). -/
inductive Reg where
  | cmd | status | eA | eB | aOff | aLen | bOff | bLen | outCap
  | rOff | rLen | rCnt | rVal | pkKind | pkDev | pkTs | pkPlen | version
  deriving DecidableEq, Repr

/-- One slot of `OUT` (R31): the payload is 255 bytes, of which the first `plen` are meaningful. -/
structure Slot where
  kind : BitVec 1
  dev : BitVec 5
  ts : BitVec 64
  plen : Byte
  payload : Vector Byte 255
  deriving DecidableEq, Repr

/-- A packet: direction, device code, timestamp, payload (R19, R28). -/
structure Packet where
  kind : BitVec 1
  dev : BitVec 5
  ts : BitVec 64
  payload : List Byte
  deriving DecidableEq, Repr

/-- One move of the host (R17, R91). A read is a move too: it changes nothing (R57). -/
inductive HostMove where
  /-- `SET reg, value`: a host write of a register (R36, R37); of `CMD`: the command runs (R25). -/
  | set (r : Reg) (value : Nat)
  /-- `POKE addr, bytes`: a host write of bytes to `BUF` (R30). -/
  | poke (addr : Nat) (bytes : List Byte)
  /-- A host write to `PLD`, which is ignored (R29, R36). -/
  | pokePld (addr : Nat) (bytes : List Byte)
  /-- A host write to a slot of `OUT`, which is ignored (R31, R36). -/
  | pokeOut (index : Nat) (slot : Slot)
  /-- `GET reg`: a host read of a register. -/
  | get (r : Reg)
  /-- `PEEK addr, n`: a host read of `n` bytes of `BUF`. -/
  | peek (addr n : Nat)
  /-- A host read of `n` bytes of `PLD`. -/
  | peekPld (addr n : Nat)
  /-- A host read of a slot of `OUT`. -/
  | peekOut (index : Nat)
  /-- The reset event (R210). -/
  | reset
  deriving DecidableEq, Repr

/-- A memory as the cells written since reset: a list of (address, contents) pairs, addresses strictly
rising. An address that is not listed holds what it held after reset (log 3). -/
abbrev Memory (α : Type) := List (Nat × α)

/-- The whole state (R20), the constants the machine was made with, and the model's own three fields. -/
structure State where
  /-- Register 0, `CMD` (R25). -/
  cmd : Byte
  /-- Register 1, `STATUS` (R26). -/
  status : Byte
  /-- Register 2, `E_A` (R24). -/
  eA : Word32
  /-- Register 3, `E_B` (R24). -/
  eB : Word32
  /-- Register 4, `A_OFF` (R22). -/
  aOff : Word32
  /-- Register 5, `A_LEN` (R22). -/
  aLen : Word32
  /-- Register 6, `B_OFF` (R22). -/
  bOff : Word32
  /-- Register 7, `B_LEN` (R22). -/
  bLen : Word32
  /-- Register 8, `OUT_CAP` (R22). -/
  outCap : Word32
  /-- Register 9, `R_OFF` (R23). -/
  rOff : Word32
  /-- Register 10, `R_LEN` (R23). -/
  rLen : Word32
  /-- Register 11, `R_CNT` (R23). -/
  rCnt : Word32
  /-- Register 12, `R_VAL` (R23). -/
  rVal : Word32
  /-- Register 13, `PK_KIND` (R28, R104). -/
  pkKind : BitVec 1
  /-- Register 14, `PK_DEV` (R28). -/
  pkDev : Byte
  /-- Register 15, `PK_TS` (R28, R103). -/
  pkTs : BitVec 64
  /-- Register 16, `PK_PLEN` (R28, R29). -/
  pkPlen : Byte
  /-- `PLD`, the payload staging memory (R29). -/
  pld : Vector Byte 255
  /-- `BUF`, the bytes written since reset (R30). -/
  buf : List Host.Cell
  /-- `OUT`, the slots written since reset (R31). -/
  out : Memory Slot
  /-- The constants this machine was made with (R10, R11, R35); no step writes them (log 2). -/
  chip : Chip
  /-- The model's own: how many reset events there have been since power-up (log 3). -/
  resets : Nat
  /-- The model's own: how many `ANY` values have been drawn (log 4). -/
  draws : Nat
  /-- The model's own: the host's moves still to come, the next one first (R233; log 1). -/
  moves : List HostMove
  deriving DecidableEq, Repr

/-- Why the machine stops with a fault: for no reason at all. The spec gives no fault outcome other than the
`STATUS` codes, and the block has no fault state of its own (R202, R233), so the type has no constructor. -/
inductive Fault where
  deriving DecidableEq, Repr

/-- Why an instruction has no meaning. -/
inductive Refusal where
  /-- An instruction this model gives no meaning; none is left, so no arm raises it. Safe. -/
  | notModelled (mnemonic : String)
  deriving DecidableEq, Repr

/-- The bytes of `PLD` after the `k`-th reset event, from address `a` on: free values (R38). -/
def State.resetPayload (e : Env) (k : Nat) : Nat → Nat → List Byte
  | 0, _ => []
  | n + 1, a => (e.powerUp k (.pld a)).setWidth 8 :: State.resetPayload e k n (a + 1)

theorem State.resetPayload_length (e : Env) (k n a : Nat) :
    (State.resetPayload e k n a).length = n := by
  induction n generalizing a with
  | zero => rfl
  | succ n ih => simp [State.resetPayload, ih]

/-- The state after the `k`-th reset event of the machine `c` (R38): every register 0, the memories
unspecified. -/
def State.afterReset (e : Env) (c : Chip) (k : Nat) : State where
  cmd := 0#8
  status := 0#8
  eA := 0#32
  eB := 0#32
  aOff := 0#32
  aLen := 0#32
  bOff := 0#32
  bLen := 0#32
  outCap := 0#32
  rOff := 0#32
  rLen := 0#32
  rCnt := 0#32
  rVal := 0#32
  pkKind := 0#1
  pkDev := 0#8
  pkTs := 0#64
  pkPlen := 0#8
  pld := ⟨(State.resetPayload e k 255 0).toArray, by simp [State.resetPayload_length]⟩
  buf := []
  out := []
  chip := c
  resets := k
  draws := 0
  moves := []

/-- The machine right after its first reset (R38, R211). -/
def State.reset : State := State.afterReset Config.env Config.chip 0

end Sys2Proof.Machine
end

