-- ==== Sys2Proof/Machine/Ops.lean ====
section
/-! DEFINITION. The named operations over memories and registers, the result clearing every command
begins with, and ending a command with an error (this hardware's only exception, R185, R197). -/

namespace Sys2Proof.Machine

/-! ### Memories: cells written since reset -/

/-- What a memory lists at an address. -/
def memGet {α : Type} : Memory α → Nat → Option α
  | [], _ => none
  | c :: m, a => if c.1 = a then some c.2 else memGet m a

/-- A memory without its entry for an address. -/
def memErase {α : Type} (m : Memory α) (a : Nat) : Memory α := m.filter fun c => c.1 != a

/-- A new entry put before the first higher address. -/
def memInsert {α : Type} (a : Nat) (v : α) : Memory α → Memory α
  | [] => [(a, v)]
  | c :: m => if a < c.1 then (a, v) :: c :: m else c :: memInsert a v m

/-- Writing one cell. -/
def memSet {α : Type} (m : Memory α) (a : Nat) (v : α) : Memory α := memInsert a v (memErase m a)

/-- Writing consecutive cells from an address on, lowest first. -/
def memSetFrom {α : Type} : Memory α → Nat → List α → Memory α
  | m, _, [] => m
  | m, a, v :: vs => memSetFrom (memSet m a v) (a + 1) vs

/-- The canonical form: addresses strictly rising. What an unlisted address holds is no listed value
(nothing was written there), so no entry can repeat it (log 3). -/
abbrev Memory.wf {α : Type} (m : Memory α) : Prop := m.Pairwise fun c d => c.1 < d.1

/-- Every listed address is below a bound. -/
abbrev memBelow {α : Type} (n : Nat) (m : Memory α) : Prop := ∀ c ∈ m, c.1 < n

/-! ### Reading memories -/

/-- The byte of `BUF` at an address (R30): what was last written there, or what reset left (log 3). -/
def readBuf (e : Env) (s : State) (a : Nat) : Byte :=
  (memGet s.buf a).getD ((e.powerUp s.resets (.buf a)).setWidth 8)

/-- `MemRead(BUF, off, n)` (R16). -/
def readBytes (e : Env) (s : State) (off : Nat) : Nat → List Byte
  | 0 => []
  | n + 1 => readBuf e s off :: readBytes e s (off + 1) n

/-- The bytes of slice A (R22). -/
def sliceA (e : Env) (s : State) : List Byte := readBytes e s s.aOff.toNat s.aLen.toNat

/-- `MemRead(PLD, 0, PK_PLEN)`: the payload of the packet register (R29). -/
def pkPayload (s : State) : List Byte := s.pld.toList.take s.pkPlen.toNat

/-- The payload bytes a slot of `OUT` holds after reset. -/
def resetSlotPayload (e : Env) (k i : Nat) : Nat → Nat → List Byte
  | 0, _ => []
  | n + 1, a => (e.powerUp k (.outPayload i a)).setWidth 8 :: resetSlotPayload e k i n (a + 1)

theorem resetSlotPayload_length (e : Env) (k i n a : Nat) :
    (resetSlotPayload e k i n a).length = n := by
  induction n generalizing a with
  | zero => rfl
  | succ n ih => simp [resetSlotPayload, ih]

/-- What slot `i` of `OUT` holds after the `k`-th reset: free values (R38). -/
def resetSlot (e : Env) (k i : Nat) : Slot where
  kind := (e.powerUp k (.outKind i)).setWidth 1
  dev := (e.powerUp k (.outDev i)).setWidth 5
  ts := e.powerUp k (.outTs i)
  plen := (e.powerUp k (.outPlen i)).setWidth 8
  payload := ⟨(resetSlotPayload e k i 255 0).toArray, by simp [resetSlotPayload_length]⟩

/-- Slot `i` of `OUT` (R31). -/
def readOut (e : Env) (s : State) (i : Nat) : Slot := (memGet s.out i).getD (resetSlot e s.resets i)

/-- The packet a slot holds: its fields, and the first `PLEN` bytes of its payload (R31). -/
def slotPacket (t : Slot) : Packet where
  kind := t.kind
  dev := t.dev
  ts := t.ts
  payload := t.payload.toList.take t.plen.toNat

/-- Register `r` read by the host (R36), as a number of its own width. `VERSION` always reads the
constant (R27). -/
def readReg (s : State) : Reg → Nat
  | .cmd => s.cmd.toNat
  | .status => s.status.toNat
  | .eA => s.eA.toNat
  | .eB => s.eB.toNat
  | .aOff => s.aOff.toNat
  | .aLen => s.aLen.toNat
  | .bOff => s.bOff.toNat
  | .bLen => s.bLen.toNat
  | .outCap => s.outCap.toNat
  | .rOff => s.rOff.toNat
  | .rLen => s.rLen.toNat
  | .rCnt => s.rCnt.toNat
  | .rVal => s.rVal.toNat
  | .pkKind => s.pkKind.toNat
  | .pkDev => s.pkDev.toNat
  | .pkTs => s.pkTs.toNat
  | .pkPlen => s.pkPlen.toNat
  | .version => s.chip.version.toNat

/-- The number of a register (R21). -/
def regNumber : Reg → Nat
  | .cmd => 0
  | .status => 1
  | .eA => 2
  | .eB => 3
  | .aOff => 4
  | .aLen => 5
  | .bOff => 6
  | .bLen => 7
  | .outCap => 8
  | .rOff => 9
  | .rLen => 10
  | .rCnt => 11
  | .rVal => 12
  | .pkKind => 13
  | .pkDev => 14
  | .pkTs => 15
  | .pkPlen => 16
  | .version => 17

/-- The width of a register (R21). -/
def regWidth : Reg → Nat
  | .cmd => 8
  | .status => 8
  | .eA => 32
  | .eB => 32
  | .aOff => 32
  | .aLen => 32
  | .bOff => 32
  | .bLen => 32
  | .outCap => 32
  | .rOff => 32
  | .rLen => 32
  | .rCnt => 32
  | .rVal => 32
  | .pkKind => 1
  | .pkDev => 8
  | .pkTs => 64
  | .pkPlen => 8
  | .version => 8

/-- The registers whose value a host write changes: those marked `RW` or `W*` (R21, R36). -/
def hostWritable : Reg → Bool
  | .cmd => true
  | .status => false
  | .eA => false
  | .eB => false
  | .aOff => true
  | .aLen => true
  | .bOff => true
  | .bLen => true
  | .outCap => true
  | .rOff => false
  | .rLen => false
  | .rCnt => false
  | .rVal => false
  | .pkKind => true
  | .pkDev => true
  | .pkTs => true
  | .pkPlen => false
  | .version => false

/-! ### `ANY`: free values, each draw a new one (R16; log 4) -/

/-- `n` bytes of `ANY`, draws `d` to `d + n - 1`. -/
def anyBytes (e : Env) : Nat → Nat → List Byte
  | _, 0 => []
  | d, n + 1 => (e.anyBits d).setWidth 8 :: anyBytes e (d + 1) n

theorem anyBytes_length (e : Env) (d n : Nat) : (anyBytes e d n).length = n := by
  induction n generalizing d with
  | zero => rfl
  | succ n ih => simp [anyBytes, ih]

/-- The first `n` cells of a payload memory: the bytes given, then `ANY` (R29). -/
def paddedBytes (e : Env) : Nat → List Byte → Nat → List Byte
  | _, _, 0 => []
  | d, p, n + 1 => p.headD ((e.anyBits d).setWidth 8) :: paddedBytes e (d + 1) p.tail n

theorem paddedBytes_length (e : Env) (d : Nat) (p : List Byte) (n : Nat) :
    (paddedBytes e d p n).length = n := by
  induction n generalizing d p with
  | zero => rfl
  | succ n ih => simp [paddedBytes, ih]

/-- A payload memory of 255 bytes holding a payload and `ANY` after it (R29, R31). -/
def padPayload (e : Env) (d : Nat) (p : List Byte) : Vector Byte 255 :=
  ⟨(paddedBytes e d p 255).toArray, by simp [paddedBytes_length]⟩

/-- How many draws a slot of `ANY` takes: four fields and 255 payload bytes. -/
abbrev slotDraws : Nat := 259

/-- A slot every field of which is `ANY`, draws `d` to `d + 258` (R173). -/
def anySlot (e : Env) (d : Nat) : Slot where
  kind := (e.anyBits d).setWidth 1
  dev := (e.anyBits (d + 1)).setWidth 5
  ts := e.anyBits (d + 2)
  plen := (e.anyBits (d + 3)).setWidth 8
  payload := padPayload e (d + 4) []

/-- `n` slots of `ANY`. -/
def anySlots (e : Env) : Nat → Nat → List Slot
  | _, 0 => []
  | d, n + 1 => anySlot e d :: anySlots e (d + slotDraws) n

/-- The slot holding a packet, its payload padded with `ANY` (R31, R171). -/
def packetSlot (e : Env) (d : Nat) (p : Packet) : Slot where
  kind := p.kind
  dev := p.dev
  ts := p.ts
  plen := BitVec.ofNat 8 p.payload.length
  payload := padPayload e d p.payload

/-- The slots holding packets, each padded with its own draws. -/
def packetSlots (e : Env) : Nat → List Packet → List Slot
  | _, [] => []
  | d, p :: ps => packetSlot e d p :: packetSlots e (d + 255) ps

/-! ### Writing the state -/

/-- `MemWrite(BUF, off, len bs, bs)` (R16). -/
def writeBytes (off : Nat) (bs : List Byte) (s : State) : State :=
  { s with buf := memSetFrom s.buf off bs }

/-- `BUF[off .. off + n) <- ANY` (D20). -/
def scramble (e : Env) (off n : Nat) (s : State) : State :=
  { s with buf := memSetFrom s.buf off (anyBytes e s.draws n), draws := s.draws + n }

/-- The payload container takes a payload: `PLD` holds it and `ANY` after it, `PK_PLEN` its length
(R29, R100). -/
def loadPayload (e : Env) (p : List Byte) (s : State) : State :=
  { s with
    pld := padPayload e s.draws p
    pkPlen := BitVec.ofNat 8 p.length
    draws := s.draws + 255 }

/-- The packet register takes a packet (R28, R153). -/
def setPacket (e : Env) (p : Packet) (s : State) : State :=
  { loadPayload e p.payload s with pkKind := p.kind, pkDev := p.dev.setWidth 8, pkTs := p.ts }

/-- `OUT[i] <- ps[i]` for every packet of a list (R168, R171). -/
def writePackets (e : Env) (ps : List Packet) (s : State) : State :=
  { s with
    out := memSetFrom s.out 0 (packetSlots e s.draws ps)
    draws := s.draws + 255 * ps.length }

/-- `OUT[0 .. n) <- ANY` (R173). -/
def scrambleOut (e : Env) (n : Nat) (s : State) : State :=
  { s with
    out := memSetFrom s.out 0 (anySlots e s.draws n)
    draws := s.draws + slotDraws * n }

/-- `R_OFF <- off; R_LEN <- len` (R23). -/
def setSlice (off len : Nat) (s : State) : State :=
  { s with rOff := BitVec.ofNat 32 off, rLen := BitVec.ofNat 32 len }

/-- `R_VAL <- v` (R23). -/
def setVal (v : Nat) (s : State) : State := { s with rVal := BitVec.ofNat 32 v }

/-- `R_CNT <- n` (R23). -/
def setCnt (n : Nat) (s : State) : State := { s with rCnt := BitVec.ofNat 32 n }

/-! ### Errors: entry and return -/

/-- The first action of every command (R39): the result and error registers are cleared. This is also
the only "return" from an error there is: the next command discards it (R199). -/
def clearResults (s : State) : State :=
  { s with
    status := 0#8
    eA := 0#32
    eB := 0#32
    rOff := 0#32
    rLen := 0#32
    rCnt := 0#32
    rVal := 0#32 }

/-- `raise E(a, b)`: the code to `STATUS`, the fields to `E_A` and `E_B`, and the command ends; nothing
is saved and control goes nowhere (R197). -/
def raise (err : CmdError) (s : State) : State :=
  { s with status := errorCode err, eA := errorInfoA err, eB := errorInfoB err }

/-! ### Host writes of registers -/

/-- A host write of register `r` (R36, R37): the low bits are kept; a register marked `R` ignores it. The
write of `CMD` only stores here; that the command then runs is `commandWrite` of HostMoves.lean. -/
def writeReg (r : Reg) (v : Nat) (s : State) : State :=
  match r with
  | .cmd => { s with cmd := BitVec.ofNat 8 v }
  | .status => s
  | .eA => s
  | .eB => s
  | .aOff => { s with aOff := BitVec.ofNat 32 v }
  | .aLen => { s with aLen := BitVec.ofNat 32 v }
  | .bOff => { s with bOff := BitVec.ofNat 32 v }
  | .bLen => { s with bLen := BitVec.ofNat 32 v }
  | .outCap => { s with outCap := BitVec.ofNat 32 v }
  | .rOff => s
  | .rLen => s
  | .rCnt => s
  | .rVal => s
  | .pkKind => { s with pkKind := BitVec.ofNat 1 v }
  | .pkDev => { s with pkDev := BitVec.ofNat 8 v }
  | .pkTs => { s with pkTs := BitVec.ofNat 64 v }
  | .pkPlen => s
  | .version => s

/-- The reset event (R210, R211): every cell of the machine as after reset; what the host goes on to do,
and the count of draws, are not the machine's. -/
def resetEvent (e : Env) (s : State) : State :=
  { State.afterReset e s.chip (s.resets + 1) with draws := s.draws, moves := s.moves }

end Sys2Proof.Machine
end

