-- ==== Sys2Proof/Machine/Identity.lean ====
section
/-! DEFINITION. The payload container and the identity fields: `PLOAD`, `DEVCHK`
(`40_payload_identity.md`). -/

namespace Sys2Proof.Machine

/-- `PLOAD` (R100). -/
def pload (e : Env) (s₀ : State) : State :=
  let s := clearResults s₀
  if ¬ admissible s.chip s.aOff s.aLen then raise (.operandError 2) s
  else if 255 < s.aLen.toNat then raise (.payloadTooLong s.aLen.toNat) s
  else loadPayload e (sliceA e s) s

/-- `DEVCHK` (R101). -/
def devchk (s₀ : State) : State :=
  let s := clearResults s₀
  if ¬ devAssigned s.chip s.pkDev then raise (.invalidId s.pkDev) s
  else s

/-- The meaning of `PLOAD`. -/
def execPload (s : State) : Host.Outcome State Fault Refusal := .next (pload Config.env s)

/-- The meaning of `DEVCHK`. -/
def execDevchk (s : State) : Host.Outcome State Fault Refusal := .next (devchk s)

end Sys2Proof.Machine
end

