-- ==== Sys2Proof/Machine/Primitives.lean ====
section
/-! DEFINITION. The primitives: `CRC16`, `STUFF`, `UNSTUFF` (`41_primitives.md`). -/

namespace Sys2Proof.Machine

/-! ### Stuffing -/

/-- The largest number of data bytes one block carries (R12). -/
abbrev blockMax : Nat := 254

/-- `STUFF_MAX`, the worst-case stuffed length (R114). -/
def stuffMax (n : Nat) : Nat := if n = 0 then 1 else n + (n + 253) / 254

/-- The bytes up to the first zero, at most 254 of them: `raw[i .. j)` of R113. -/
def leadingRun (raw : List Byte) : List Byte := (raw.take blockMax).takeWhile (· != 0#8)

/-- The loop of `stuff` (R113) on the bytes from `i` on; `fuel` bounds the number of blocks. -/
def stuffLoop : Nat → List Byte → List Byte
  | 0, _ => []
  | fuel + 1, raw =>
    let run := leadingRun raw
    let rest := raw.drop run.length
    if run.length = blockMax then
      0xFF#8 :: run ++ (if rest = [] then [] else stuffLoop fuel rest)
    else
      BitVec.ofNat 8 (run.length + 1) :: run ++
        match rest with
        | [] => []
        | _ :: after => if after = [] then [0x01#8] else stuffLoop fuel after

/-- `stuff(raw)`: Consistent Overhead Byte Stuffing (R113; log 10). Every pass uses up a byte, so the
length is fuel enough. -/
def stuff (raw : List Byte) : List Byte := if raw = [] then [0x01#8] else stuffLoop raw.length raw

/-! ### Unstuffing -/

/-- The loop of `unstuff` (R116) on the bytes from `i` on; `none` is `FramingError`. -/
def unstuffLoop : Nat → List Byte → Option (List Byte)
  | _, [] => some []
  | 0, _ :: _ => none
  | fuel + 1, c :: rest =>
    if c = 0#8 then none
    else if rest.length < c.toNat - 1 then none
    else
      let blk := rest.take (c.toNat - 1)
      let after := rest.drop (c.toNat - 1)
      if 0#8 ∈ blk then none
      else
        match unstuffLoop fuel after with
        | none => none
        | some out => some (blk ++ (if c ≠ 0xFF#8 ∧ after ≠ [] then [0#8] else []) ++ out)

/-- `unstuff(s)` (R116); `none` is `FramingError`. -/
def unstuff (s : List Byte) : Option (List Byte) := unstuffLoop s.length s

/-- `strip_term(s)`: the bytes without one trailing zero, if there is one (R117). -/
def stripTerm (s : List Byte) : List Byte := if s.getLast? = some 0#8 then s.dropLast else s

/-! ### The commands -/

/-- `CRC16` (R111). -/
def crc16Cmd (e : Env) (s₀ : State) : State :=
  let s := clearResults s₀
  if ¬ admissible s.chip s.aOff s.aLen then raise (.operandError 2) s
  else setVal (e.crc16 (sliceA e s)).toNat s

/-- `STUFF` (R115). -/
def stuffCmd (e : Env) (s₀ : State) : State :=
  let s := clearResults s₀
  if ¬ admissible s.chip s.aOff s.aLen then raise (.operandError 2) s
  else if ¬ admissible s.chip s.bOff s.bLen then raise (.operandError 3) s
  else if overlap s.aOff s.aLen s.bOff s.bLen then raise (.operandError 4) s
  else if s.bLen.toNat < stuffMax s.aLen.toNat then
    raise (.bufferTooSmall (stuffMax s.aLen.toNat) s.bLen.toNat) s
  else
    let t := stuff (sliceA e s)
    let s := writeBytes s.bOff.toNat t s
    let s := scramble e (s.bOff.toNat + t.length) (s.bLen.toNat - t.length) s
    setSlice s.bOff.toNat t.length s

/-- `UNSTUFF` (R118). -/
def unstuffCmd (e : Env) (s₀ : State) : State :=
  let s := clearResults s₀
  if ¬ admissible s.chip s.aOff s.aLen then raise (.operandError 2) s
  else
    match unstuff (stripTerm (sliceA e s)) with
    | none => raise .framingError (scramble e s.aOff.toNat s.aLen.toNat s)
    | some r =>
      let s := writeBytes s.aOff.toNat r s
      let s := scramble e (s.aOff.toNat + r.length) (s.aLen.toNat - r.length) s
      setSlice s.aOff.toNat r.length s

/-- The meaning of `CRC16`. -/
def execCrc16 (s : State) : Host.Outcome State Fault Refusal := .next (crc16Cmd Config.env s)

/-- The meaning of `STUFF`. -/
def execStuff (s : State) : Host.Outcome State Fault Refusal := .next (stuffCmd Config.env s)

/-- The meaning of `UNSTUFF`. -/
def execUnstuff (s : State) : Host.Outcome State Fault Refusal := .next (unstuffCmd Config.env s)

end Sys2Proof.Machine
end

