-- ==== Sys2Proof/Machine/Framer.lean ====
section
/-! DEFINITION. The framer: `ENCSIZE`, `ENCODE` (`42_framer.md`). -/

namespace Sys2Proof.Machine

/-- `OVERHEAD`: the bytes of a raw frame beside its payload (R9). -/
abbrev overhead : Nat := 13

/-- Header and payload of a raw frame (R130, steps 1 and 2). -/
def frameBody (c : Chip) (p : Packet) : List Byte :=
  [c.version, BitVec.ofNat 8 p.payload.length, controlByte p.kind p.dev] ++ le64 p.ts ++ p.payload

/-- `frame_raw(kind, dev, ts, p)` (R130): header, payload, checksum low byte first. -/
def frameRaw (e : Env) (c : Chip) (p : Packet) : List Byte :=
  frameBody c p ++ le16 (e.crc16 (frameBody c p))

/-- The wire frame of a packet: its raw frame stuffed, then the terminator (R70, R133 step 4). -/
def wireFrame (e : Env) (c : Chip) (p : Packet) : List Byte := stuff (frameRaw e c p) ++ [0#8]

/-- `encsize(n)`: the least slice length `ENCODE` accepts for `n` payload bytes (R131). -/
def encSize (n : Nat) : Nat := (overhead + n) + (stuffMax (overhead + n) + 1)

/-- The packet in the packet register; its device code is bits 4 to 0 of `PK_DEV` (R28, R133). -/
def pkPacket (s : State) : Packet where
  kind := s.pkKind
  dev := s.pkDev.extractLsb' 0 5
  ts := s.pkTs
  payload := pkPayload s

/-- `ENCSIZE` (R132). -/
def encsizeCmd (s₀ : State) : State :=
  let s := clearResults s₀
  setVal (encSize s.pkPlen.toNat) s

/-- `ENCODE` (R133, R134). -/
def encodeCmd (e : Env) (s₀ : State) : State :=
  let s := clearResults s₀
  if ¬ admissible s.chip s.aOff s.aLen then raise (.operandError 2) s
  else if ¬ devAssigned s.chip s.pkDev then raise (.operandError 6) s
  else if s.aLen.toNat < encSize s.pkPlen.toNat then
    raise (.bufferTooSmall (encSize s.pkPlen.toNat) s.aLen.toNat) s
  else
    let f := frameRaw e s.chip (pkPacket s)
    let t := wireFrame e s.chip (pkPacket s)
    let s := writeBytes s.aOff.toNat f s
    let s := writeBytes (s.aOff.toNat + f.length) t s
    let s := scramble e (s.aOff.toNat + f.length + t.length) (s.aLen.toNat - (f.length + t.length)) s
    setSlice (s.aOff.toNat + f.length) t.length s

/-- The meaning of `ENCSIZE`. -/
def execEncsize (s : State) : Host.Outcome State Fault Refusal := .next (encsizeCmd s)

/-- The meaning of `ENCODE`. -/
def execEncode (s : State) : Host.Outcome State Fault Refusal := .next (encodeCmd Config.env s)

end Sys2Proof.Machine
end

