-- ==== Sys2Proof/Machine/Deframer.lean ====
section
/-! DEFINITION. The deframer and integrity stage: `DECODE1` (`43_deframer.md`). -/

namespace Sys2Proof.Machine

/-- Steps 2 to 7 of `decode_frame`, on the unstuffed frame (R147 to R152): the first failure wins. -/
def parseFrame (e : Env) (c : Chip) (f : List Byte) : Except CmdError Packet :=
  let m := f.length
  if m < overhead then .error (.bufferTooShort m)
  else if f.getD 0 0#8 ≠ c.version then .error (.unsupportedVersion (f.getD 0 0#8))
  else
    let computed := e.crc16 (f.take (m - 2))
    let embedded := BitVec.ofNat 16 (fromLe (f.drop (m - 2)))
    if computed ≠ embedded then .error (.invalidChecksum computed embedded)
    else if (f.getD 1 0#8).toNat ≠ m - overhead then .error (.invalidLength (m - overhead) (f.getD 1 0#8))
    else
      let dev := controlDev (f.getD 2 0#8)
      if ¬ devAssigned c (dev.setWidth 8) then .error (.invalidId (dev.setWidth 8))
      else .ok {
        kind := controlKind (f.getD 2 0#8)
        dev := dev
        ts := BitVec.ofNat 64 (fromLe ((f.drop 3).take 8))
        payload := (f.drop 11).take (f.getD 1 0#8).toNat }

/-- `decode_frame(s)` (R144): drop one terminator, unstuff, validate. -/
def decodeFrame (e : Env) (c : Chip) (s : List Byte) : Except CmdError Packet :=
  match unstuff (stripTerm s) with
  | none => .error .framingError
  | some f => parseFrame e c f

/-- `DECODE1` (R153): the input slice is consumed whatever the outcome (R154). -/
def decode1Cmd (e : Env) (s₀ : State) : State :=
  let s := clearResults s₀
  if ¬ admissible s.chip s.aOff s.aLen then raise (.operandError 2) s
  else
    let r := decodeFrame e s.chip (sliceA e s)
    let s := scramble e s.aOff.toNat s.aLen.toNat s
    match r with
    | .error err => raise err s
    | .ok p => setPacket e p s

/-- The meaning of `DECODE1`. -/
def execDecode1 (s : State) : Host.Outcome State Fault Refusal := .next (decode1Cmd Config.env s)

end Sys2Proof.Machine
end

