-- ==== Sys2Proof/Machine/Stream.lean ====
section
/-! DEFINITION. The streaming frame synchronizer and buffer manager: `DECODES` (`44_stream_sync.md`). -/

namespace Sys2Proof.Machine

/-- What `decode_stream` returns (R165). -/
inductive StreamResult where
  /-- `cur` bytes consumed, and the packets decoded, in order. -/
  | ok (cur : Nat) (pkts : List Packet)
  /-- The error, the index of the failing frame's delimiter, and how many frames came before it. -/
  | err (e : CmdError) (z k : Nat)
  deriving DecidableEq, Repr

/-- One more packet before those of a result. -/
def consPacket (p : Packet) : StreamResult → StreamResult
  | .ok cur pkts => .ok cur (p :: pkts)
  | .err e z k => .err e z (k + 1)

/-- The loop of `decode_stream` (R165 to R169): `cap` slots are left, `cur` bytes are consumed, and
`rest` is the unconsumed part of the slice. -/
def streamLoop (e : Env) (c : Chip) : Nat → Nat → List Byte → StreamResult
  | 0, cur, _ => .ok cur []
  | cap + 1, cur, rest =>
    match findZero rest with
    | none => .ok cur []
    | some k =>
      match decodeFrame e c (rest.take k) with
      | .error err => .err err (cur + k) 0
      | .ok p => consPacket p (streamLoop e c cap (cur + k + 1) (rest.drop (k + 1)))

/-- `decode_stream(buf, cap)` (R165). -/
def decodeStream (e : Env) (c : Chip) (bytes : List Byte) (cap : Nat) : StreamResult :=
  streamLoop e c cap 0 bytes

/-- `DECODES` (R171 to R173). -/
def decodesCmd (e : Env) (s₀ : State) : State :=
  let s := clearResults s₀
  if ¬ admissible s.chip s.aOff s.aLen then raise (.operandError 2) s
  else if s.chip.outSlots < s.outCap.toNat then raise (.operandError 5) s
  else
    match decodeStream e s.chip (sliceA e s) s.outCap.toNat with
    | .ok cur pkts =>
      let s := writePackets e pkts s
      let s := scramble e s.aOff.toNat cur s
      setCnt pkts.length (setSlice (s.aOff.toNat + cur) (s.aLen.toNat - cur) s)
    | .err err z _ =>
      let s := scramble e s.aOff.toNat z s
      raise err (scrambleOut e s.outCap.toNat s)

/-- The meaning of `DECODES`. -/
def execDecodes (s : State) : Host.Outcome State Fault Refusal := .next (decodesCmd Config.env s)

end Sys2Proof.Machine
end

