-- ==== Sys2Proof/Machine/Dispatch.lean ====
section
/-! DEFINITION. One arm per command (R85). -/

namespace Sys2Proof.Machine

/-- The command's own transition (R8, R25). -/
def exec (i : Instr) (s : State) : Host.Outcome State Fault Refusal :=
  match i with
  | .pload => Sys2Proof.Machine.execPload s
  | .devchk => Sys2Proof.Machine.execDevchk s
  | .crc16 => Sys2Proof.Machine.execCrc16 s
  | .stuff => Sys2Proof.Machine.execStuff s
  | .unstuff => Sys2Proof.Machine.execUnstuff s
  | .encsize => Sys2Proof.Machine.execEncsize s
  | .encode => Sys2Proof.Machine.execEncode s
  | .decode1 => Sys2Proof.Machine.execDecode1 s
  | .decodes => Sys2Proof.Machine.execDecodes s

end Sys2Proof.Machine
end

