-- ==== Sys2Proof/Machine/HostMoves.lean ====
section
/-! DEFINITION. The host's moves (R17, R36, R91): the `CMD` write that runs a command, register and
memory accesses, reset, and the pseudo-operations a host program is written with (R92). -/

namespace Sys2Proof.Machine

/-- What a reserved command code does: result clearing, `OperandError` sub-code 1, nothing else (R86). -/
def reservedCommand (s : State) : State := raise (.operandError 1) (clearResults s)

/-- A host write to `CMD` (R25): the low 8 bits are stored, and the command they select runs to its end
in the same step. -/
def commandWrite (v : Nat) (s : State) : Host.Outcome State Fault Refusal :=
  match decode (BitVec.ofNat 8 v) with
  | .ok i => exec i (writeReg .cmd v s)
  | .error _ => .next (reservedCommand (writeReg .cmd v s))

/-- A host write of bytes to `BUF` (R30, R36, R91): a byte whose address is below `BUF_CAP` is written; one
past the end has no cell, so nothing is written there (log 7). -/
def pokeBytes (addr : Nat) (bytes : List Byte) (s : State) : State :=
  writeBytes addr (bytes.take (s.chip.bufCap - addr)) s

/-- One move of the host (R17, R36). Reads have no side effect (R57), and writes of `PLD` and `OUT` are
ignored (R36), at every address. Every move answers a next state (R202, R233). -/
def hostMove (m : HostMove) (s : State) : Host.Outcome State Fault Refusal :=
  match m with
  | .set r v => if r = .cmd then commandWrite v s else .next (writeReg r v s)
  | .poke addr bytes => .next (pokeBytes addr bytes s)
  | .pokePld _ _ => .next s
  | .pokeOut _ _ => .next s
  | .get _ => .next s
  | .peek _ _ => .next s
  | .peekPld _ _ => .next s
  | .peekOut _ => .next s
  | .reset => .next (resetEvent Config.env s)

/-! ### Pseudo-operations (R92) -/

/-- `SLICEA off, len`. -/
def sliceAMoves (off len : Nat) : List HostMove := [.set .aOff off, .set .aLen len]

/-- `SLICEB off, len`. -/
def sliceBMoves (off len : Nat) : List HostMove := [.set .bOff off, .set .bLen len]

/-- `PACKET kind, dev, ts`. -/
def packetMoves (kind dev ts : Nat) : List HostMove :=
  [.set .pkKind kind, .set .pkDev dev, .set .pkTs ts]

/-- `APPEND bytes` at the host's variable `fill`: the moves, and the new `fill`. -/
def appendMoves (fill : Nat) (bytes : List Byte) : List HostMove × Nat :=
  ([.poke fill bytes], fill + bytes.length)

/-- `RETAIN`, with the values the last `DECODES` left in the state. -/
def retainMoves (s : State) : List HostMove := [.set .aOff s.rOff.toNat, .set .aLen s.rLen.toNat]

/-- `<MNEMONIC>`: the host writes the command's code to `CMD` (R91). -/
def commandMove (i : Instr) : HostMove := .set .cmd (encode i).toNat

end Sys2Proof.Machine
end

