-- ==== Sys2Proof/Machine/Step.lean ====
section
/-! DEFINITION. One step: the host's next move. -/

namespace Sys2Proof.Machine

/-- One step of the machine: the first of the host's moves still to come is made. With none left nothing
happens, since the block does nothing on its own (R211, R233; log 1). -/
def step (s : State) : Host.Outcome State Fault Refusal :=
  match s.moves with
  | [] => .next s
  | m :: rest => hostMove m { s with moves := rest }

/-- The state whose next move is the host's write of a command word to `CMD`: the way every command comes
to run on this hardware (R25; log 1). -/
def State.withFetchWord (s : State) (nbits w : Nat) : State :=
  { s with moves := .set .cmd (commandWord nbits w).toNat :: s.moves }

end Sys2Proof.Machine
end

