-- ==== Sys2Proof/Safety.lean ====
section
/-! DEFINITION. What counts as a good state and a good run: the invariant every step keeps, and a run in
which no command reports an error (R233); and the words claims about commands are made in: how a command
ended, and what it left alone. -/

namespace Sys2Proof.Machine

/-- Every memory has its canonical form and lists only cells that exist (R30, R31). -/
abbrev MemoriesWf (s : State) : Prop :=
  Memory.wf s.buf ∧ memBelow s.chip.bufCap s.buf ∧ Memory.wf s.out ∧ memBelow s.chip.outSlots s.out

/-- The result registers name cells that exist: a range of `BUF` and a number of slots (R65, R170). -/
abbrev ResultsInside (s : State) : Prop :=
  s.rOff.toNat + s.rLen.toNat ≤ s.chip.bufCap ∧ s.rCnt.toNat ≤ s.chip.outSlots

/-- `STATUS` holds a code that exists; after a success the error registers read 0, after an error the
result registers do (R23, R24, R26, R186). -/
abbrev StatusForm (s : State) : Prop :=
  statusLegal s.status = true ∧
  (s.status = 0#8 → s.eA = 0#32 ∧ s.eB = 0#32) ∧
  (s.status ≠ 0#8 → s.rOff = 0#32 ∧ s.rLen = 0#32 ∧ s.rCnt = 0#32 ∧ s.rVal = 0#32)

/-- The invariant of the machine. -/
abbrev Inv (s : State) : Prop := MemoriesWf s ∧ ResultsInside s ∧ StatusForm s

/-- The next move runs a command: it is a write to `CMD` (R25). -/
def nextIsCommand (s : State) : Bool :=
  match s.moves with
  | .set .cmd _ :: _ => true
  | _ => false

/-- Each of the next `n` steps is made, and none that runs a command leaves an error in `STATUS` (R233). -/
def quietRun : Nat → State → Bool
  | 0, _ => true
  | n + 1, s =>
    match step s with
    | .next t => (!nextIsCommand s || t.status == 0#8) && quietRun n t
    | .fault _ => false
    | .refused _ => false

/-! ### How a command ended -/

/-- The command succeeded, with these values in `R_OFF`, `R_LEN`, `R_CNT` and `R_VAL` (R23, R24, R39). -/
abbrev Succeeds (t : State) (off len cnt val : Nat) : Prop :=
  t.status = 0#8 ∧ t.eA = 0#32 ∧ t.eB = 0#32 ∧
  t.rOff.toNat = off ∧ t.rLen.toNat = len ∧ t.rCnt.toNat = cnt ∧ t.rVal.toNat = val

/-- The command ended with an error: its code and fields, and no result (R197). -/
abbrev FailsWith (t : State) (code a b : Nat) : Prop :=
  t.status.toNat = code ∧ t.eA.toNat = a ∧ t.eB.toNat = b ∧
  t.rOff = 0#32 ∧ t.rLen = 0#32 ∧ t.rCnt = 0#32 ∧ t.rVal = 0#32

/-- The command ended with a given error of R186, and no result. -/
abbrev FailsBy (t : State) (err : CmdError) : Prop :=
  t.status = errorCode err ∧ t.eA = errorInfoA err ∧ t.eB = errorInfoB err ∧
  t.rOff = 0#32 ∧ t.rLen = 0#32 ∧ t.rCnt = 0#32 ∧ t.rVal = 0#32

/-! ### What a command left alone -/

/-- `CMD`, the operand registers (R22), the constants, the host's moves to come. -/
abbrev KeepsOperands (s t : State) : Prop :=
  t.cmd = s.cmd ∧ t.aOff = s.aOff ∧ t.aLen = s.aLen ∧ t.bOff = s.bOff ∧ t.bLen = s.bLen ∧
  t.outCap = s.outCap ∧ t.chip = s.chip ∧ t.resets = s.resets ∧ t.moves = s.moves

/-- The packet register, `PLD` included (R28). -/
abbrev KeepsPacket (s t : State) : Prop :=
  t.pkKind = s.pkKind ∧ t.pkDev = s.pkDev ∧ t.pkTs = s.pkTs ∧ t.pkPlen = s.pkPlen ∧ t.pld = s.pld

/-- Every byte of `BUF` outside a range (R66). -/
abbrev KeepsBufOutside (s t : State) (off n : Nat) : Prop :=
  ∀ a, a < off ∨ off + n ≤ a → readBuf Config.env t a = readBuf Config.env s a

/-- Every byte of `BUF`. -/
abbrev KeepsBuf (s t : State) : Prop := ∀ a, readBuf Config.env t a = readBuf Config.env s a

/-- Every slot of `OUT` from an index on. -/
abbrev KeepsOutFrom (s t : State) (n : Nat) : Prop :=
  ∀ i, n ≤ i → readOut Config.env t i = readOut Config.env s i

/-- Every slot of `OUT`. -/
abbrev KeepsOut (s t : State) : Prop := ∀ i, readOut Config.env t i = readOut Config.env s i

/-- Everything but the result and error registers. -/
abbrev KeepsAllElse (s t : State) : Prop :=
  KeepsOperands s t ∧ KeepsPacket s t ∧ KeepsBuf s t ∧ KeepsOut s t

/-- A packet a frame can carry: at most 255 payload bytes and an assigned device code (R29, R102). -/
abbrev ValidPacket (c : Chip) (p : Packet) : Prop :=
  p.payload.length ≤ 255 ∧ devAssigned c (p.dev.setWidth 8) = true

/-! ### Operands and destinations -/

/-- The overlap of slices A and B (R115). -/
abbrev slicesOverlap (s : State) : Prop :=
  0 < s.aLen.toNat ∧ 0 < s.bLen.toNat ∧
  s.aOff.toNat < s.bOff.toNat + s.bLen.toNat ∧ s.bOff.toNat < s.aOff.toNat + s.aLen.toNat

/-- The part of `BUF` a command may write (R66). -/
def writeRange (i : Instr) (s : State) : Nat × Nat :=
  match i with
  | .pload | .devchk | .crc16 | .encsize => (0, 0)
  | .stuff => (s.bOff.toNat, s.bLen.toNat)
  | .unstuff | .encode | .decode1 => (s.aOff.toNat, s.aLen.toNat)
  | .decodes =>
    match decodeStream Config.env s.chip (sliceA Config.env s) s.outCap.toNat with
    | .ok cur _ => (s.aOff.toNat, cur)
    | .err _ z _ => (s.aOff.toNat, z)

/-- Two states a command cannot tell apart (R34): the same constants, operand registers, packet register
(payload bytes up to its length) and bytes of `BUF`. -/
abbrev SameInputs (s s' : State) : Prop :=
  s'.chip = s.chip ∧ s'.aOff = s.aOff ∧ s'.aLen = s.aLen ∧ s'.bOff = s.bOff ∧ s'.bLen = s.bLen ∧
  s'.outCap = s.outCap ∧ s'.pkKind = s.pkKind ∧ s'.pkDev = s.pkDev ∧ s'.pkTs = s.pkTs ∧
  s'.pkPlen = s.pkPlen ∧ pkPayload s' = pkPayload s ∧
  ∀ a, a < s.chip.bufCap → readBuf Config.env s' a = readBuf Config.env s a

end Sys2Proof.Machine
end

