-- ==== Sys2Proof/Certificates/Slice0/Obligations.lean ====
section
/-! DEFINITION. The statements about the machine, for the provers. Each docstring names the rule of the
spec it formalises; where it rests on a law the spec marks `[derived]` or on a choice of the model, it
says so. Free values (`ANY`) are never mentioned: each statement holds for every value of them. -/

open Sys2Proof Sys2Proof.Machine

/-! ### The command word and the host's moves -/

/-- R85: the nine command codes. -/
def Obligations.CommandCodesDecode : Prop :=
  decode 0x01#8 = .ok .pload ∧ decode 0x02#8 = .ok .devchk ∧ decode 0x03#8 = .ok .crc16 ∧
  decode 0x04#8 = .ok .stuff ∧ decode 0x05#8 = .ok .unstuff ∧ decode 0x06#8 = .ok .encsize ∧
  decode 0x07#8 = .ok .encode ∧ decode 0x08#8 = .ok .decode1 ∧ decode 0x09#8 = .ok .decodes

/-- Section 3 of `30_encoding.md`: the code of a command decodes to it, and no other byte does. -/
def Obligations.DecodeInvertsEncode : Prop :=
  (∀ i : Instr, i.wellFormed = true → decode (encode i) = .ok i) ∧
  (∀ (c : Byte) (i : Instr), decode c = .ok i → c = encode i)

/-- R86: a reserved code written to `CMD` clears the results, ends with `OperandError` sub-code 1 and
changes nothing else but `CMD`, which holds the code (R25). -/
def Obligations.ReservedCodeIsOperandError : Prop :=
  ∀ (v : Nat) (s : State), (v % 256 = 0 ∨ 0x0A ≤ v % 256) →
    ∃ t, commandWrite v s = .next t ∧ FailsWith t 15 1 0 ∧ t.cmd.toNat = v % 256 ∧
      t.aOff = s.aOff ∧ t.aLen = s.aLen ∧ t.bOff = s.bOff ∧ t.bLen = s.bLen ∧ t.outCap = s.outCap ∧
      t.chip = s.chip ∧ t.resets = s.resets ∧ t.draws = s.draws ∧ t.moves = s.moves ∧
      KeepsPacket s t ∧ t.buf = s.buf ∧ t.out = s.out

/-- The model's choice (log 1): a step makes the first of the host's moves still to come, and with none
left nothing happens. -/
def Obligations.StepMakesTheNextHostMove : Prop :=
  (∀ (s : State) (m : HostMove) (rest : List HostMove), s.moves = m :: rest →
    step s = hostMove m { s with moves := rest }) ∧
  (∀ s : State, s.moves = [] → step s = .next s)

/-- The model's choice of how a command comes to run (log 1): when the next move writes a byte to `CMD`
that decodes to a command, the step stores the byte in `CMD` and is that command's own transition. -/
def Obligations.StepRunsTheDecodedCommand : Prop :=
  (∀ (s : State) (v : Nat) (rest : List HostMove) (i : Instr),
    s.moves = .set .cmd v :: rest → decode (BitVec.ofNat 8 v) = .ok i →
    step s = exec i { s with moves := rest, cmd := BitVec.ofNat 8 v }) ∧
  (∀ (s : State) (w : Nat) (i : Instr), decodeTableWord 8 w = some i →
    step (s.withFetchWord 8 w) = exec i { s with cmd := encode i })

/-- R37, and R36 on registers: a host write of a register keeps the low bits, is ignored where the host may
only read, and changes no other register and no memory; a write of `CMD` keeps its low 8 bits and runs a
command. -/
def Obligations.HostRegisterWriteKeepsLowBits : Prop :=
  (∀ (r : Reg) (v : Nat) (s : State), r ≠ .cmd →
    ∃ t, hostMove (.set r v) s = .next t ∧
      readReg t r = (if hostWritable r = true then v % 2 ^ regWidth r else readReg s r) ∧
      (∀ r', r' ≠ r → readReg t r' = readReg s r') ∧
      t.pld = s.pld ∧ t.buf = s.buf ∧ t.out = s.out ∧ t.chip = s.chip ∧ t.moves = s.moves) ∧
  (∀ (v : Nat) (s : State), ∃ t, hostMove (.set .cmd v) s = .next t ∧ readReg t .cmd = v % 2 ^ 8)

/-- Section 4 of `10_state.md`: a host write to `BUF` inside it stores its bytes in rising order and changes
nothing else. Past the end of `BUF`, the model's choice (log 7): the bytes that have a cell are stored, and
nothing else changes. -/
def Obligations.HostPokeWritesItsBytes : Prop :=
  ∀ (addr : Nat) (bytes : List Byte) (s : State),
    (addr + bytes.length ≤ s.chip.bufCap →
      ∃ t, hostMove (.poke addr bytes) s = .next t ∧
        readBytes Config.env t addr bytes.length = bytes ∧
        KeepsBufOutside s t addr bytes.length ∧ KeepsPacket s t ∧ KeepsOut s t ∧
        (∀ r, readReg t r = readReg s r)) ∧
    (s.chip.bufCap < addr + bytes.length →
      ∃ t, hostMove (.poke addr bytes) s = .next t ∧
        readBytes Config.env t addr (s.chip.bufCap - addr) = bytes.take (s.chip.bufCap - addr) ∧
        KeepsBufOutside s t addr (s.chip.bufCap - addr) ∧ KeepsPacket s t ∧ KeepsOut s t ∧
        (∀ r, readReg t r = readReg s r))

/-- R36, R57: a host write to `PLD` or `OUT` is ignored, and a host read changes nothing. That this holds at
addresses past the end of a memory too is the model's choice (log 7). -/
def Obligations.IgnoredWritesAndReadsChangeNothing : Prop :=
  ∀ (s : State) (addr n : Nat) (bytes : List Byte) (slot : Slot) (r : Reg),
    hostMove (.pokePld addr bytes) s = .next s ∧
    hostMove (.pokeOut addr slot) s = .next s ∧
    hostMove (.get r) s = .next s ∧
    hostMove (.peek addr n) s = .next s ∧
    hostMove (.peekPld addr n) s = .next s ∧
    hostMove (.peekOut addr) s = .next s

/-- R202, R233 (`60_exceptions.md` section 5, `70_reset_and_hazards.md` section 5): the machine has no stuck
state and no fault outcome. Every host move and every step answers a next state; that a host access past the
end of a memory does so too is the model's choice (log 7). -/
def Obligations.NoStepFaults : Prop :=
  (∀ (m : HostMove) (s : State), ∃ t, hostMove m s = .next t) ∧ (∀ s : State, ∃ t, step s = .next t)

/-- R38: the state after reset. What `BUF`, `PLD` and `OUT` hold is `ANY`; the packet register holds the
packet "telemetry, device code 0, timestamp 0, empty payload", which is a valid one. -/
def Obligations.ResetStateIsAsSpecified : Prop :=
  (∀ r, readReg State.reset r = if r = .version then State.reset.chip.version.toNat else 0) ∧
  pkPacket State.reset = { kind := 0, dev := 0, ts := 0, payload := [] } ∧
  ValidPacket State.reset.chip (pkPacket State.reset)

/-- Sections 1 of `70_reset_and_hazards.md` and 6 of `10_state.md`: a reset event clears every register
and keeps the constants. That the host's moves and the count of draws go on is the model's choice (log 8). -/
def Obligations.ResetEventClearsEveryRegister : Prop :=
  ∀ s : State, ∃ t, hostMove .reset s = .next t ∧
    (∀ r, readReg t r = if r = .version then s.chip.version.toNat else 0) ∧
    t.chip = s.chip ∧ t.buf = [] ∧ t.out = [] ∧ t.moves = s.moves ∧ t.draws = s.draws

/-- R27: `VERSION` is read-only and always reads the constant: a host write is ignored, and no step
changes what it reads. -/
def Obligations.VersionAlwaysReadsTheConstant : Prop :=
  (∀ s : State, readReg s .version = s.chip.version.toNat) ∧
  (∀ (v : Nat) (s : State), hostMove (.set .version v) s = .next s) ∧
  (∀ s t : State, step s = .next t → t.chip = s.chip)

/-! ### The commands, one by one -/

/-- R100: `PLOAD` copies at most 255 bytes of slice A into `PLD` and its length into `PK_PLEN`; a longer
slice is `PayloadTooLong`, an inadmissible one `OperandError` 2, and then the old payload stays. -/
def Obligations.PloadLoadsThePayload : Prop :=
  decode 0x01#8 = .ok .pload ∧
  ∀ s : State,
    (s.aOff.toNat + s.aLen.toNat ≤ s.chip.bufCap → s.aLen.toNat ≤ 255 →
      ∃ t, exec .pload s = .next t ∧ Succeeds t 0 0 0 0 ∧
        t.pkPlen.toNat = s.aLen.toNat ∧ pkPayload t = sliceA Config.env s ∧
        t.pkKind = s.pkKind ∧ t.pkDev = s.pkDev ∧ t.pkTs = s.pkTs ∧
        KeepsOperands s t ∧ KeepsBuf s t ∧ KeepsOut s t) ∧
    (s.chip.bufCap < s.aOff.toNat + s.aLen.toNat →
      ∃ t, exec .pload s = .next t ∧ FailsWith t 15 2 0 ∧ KeepsAllElse s t) ∧
    (s.aOff.toNat + s.aLen.toNat ≤ s.chip.bufCap → 255 < s.aLen.toNat →
      ∃ t, exec .pload s = .next t ∧ FailsWith t 7 s.aLen.toNat 0 ∧ KeepsAllElse s t)

/-- R101, R102: `DEVCHK` succeeds on the assigned codes, 0 to 15 and the sentinel 31 if it is assigned,
and ends with `InvalidId` on every other value of `PK_DEV`. -/
def Obligations.DevchkJudgesTheDeviceCode : Prop :=
  decode 0x02#8 = .ok .devchk ∧
  ∀ s : State,
    ((s.pkDev.toNat ≤ 15 ∨ (s.pkDev.toNat = 31 ∧ s.chip.devid31 = true)) →
      ∃ t, exec .devchk s = .next t ∧ Succeeds t 0 0 0 0 ∧ KeepsAllElse s t) ∧
    (¬ (s.pkDev.toNat ≤ 15 ∨ (s.pkDev.toNat = 31 ∧ s.chip.devid31 = true)) →
      ∃ t, exec .devchk s = .next t ∧ FailsWith t 6 s.pkDev.toNat 0 ∧ KeepsAllElse s t)

/-- R111: `CRC16` puts the checksum of slice A, zero-extended, into `R_VAL`. -/
def Obligations.Crc16GivesTheChecksum : Prop :=
  decode 0x03#8 = .ok .crc16 ∧
  ∀ s : State,
    (s.aOff.toNat + s.aLen.toNat ≤ s.chip.bufCap →
      ∃ t, exec .crc16 s = .next t ∧
        Succeeds t 0 0 0 (Config.env.crc16 (sliceA Config.env s)).toNat ∧ KeepsAllElse s t) ∧
    (s.chip.bufCap < s.aOff.toNat + s.aLen.toNat →
      ∃ t, exec .crc16 s = .next t ∧ FailsWith t 15 2 0 ∧ KeepsAllElse s t)

/-- R115: `STUFF` writes the stuffed bytes of slice A to the start of slice B and returns their range;
slice A and every byte outside slice B stay as they were. Its four errors change nothing. -/
def Obligations.StuffWritesTheStuffedSlice : Prop :=
  decode 0x04#8 = .ok .stuff ∧
  ∀ s : State,
    (s.aOff.toNat + s.aLen.toNat ≤ s.chip.bufCap → s.bOff.toNat + s.bLen.toNat ≤ s.chip.bufCap →
      ¬ slicesOverlap s → stuffMax s.aLen.toNat ≤ s.bLen.toNat →
      ∃ t, exec .stuff s = .next t ∧
        Succeeds t s.bOff.toNat (stuff (sliceA Config.env s)).length 0 0 ∧
        readBytes Config.env t s.bOff.toNat (stuff (sliceA Config.env s)).length
          = stuff (sliceA Config.env s) ∧
        sliceA Config.env t = sliceA Config.env s ∧
        KeepsBufOutside s t s.bOff.toNat s.bLen.toNat ∧
        KeepsOperands s t ∧ KeepsPacket s t ∧ KeepsOut s t) ∧
    (s.chip.bufCap < s.aOff.toNat + s.aLen.toNat →
      ∃ t, exec .stuff s = .next t ∧ FailsWith t 15 2 0 ∧ KeepsAllElse s t) ∧
    (s.aOff.toNat + s.aLen.toNat ≤ s.chip.bufCap → s.chip.bufCap < s.bOff.toNat + s.bLen.toNat →
      ∃ t, exec .stuff s = .next t ∧ FailsWith t 15 3 0 ∧ KeepsAllElse s t) ∧
    (s.aOff.toNat + s.aLen.toNat ≤ s.chip.bufCap → s.bOff.toNat + s.bLen.toNat ≤ s.chip.bufCap →
      slicesOverlap s →
      ∃ t, exec .stuff s = .next t ∧ FailsWith t 15 4 0 ∧ KeepsAllElse s t) ∧
    (s.aOff.toNat + s.aLen.toNat ≤ s.chip.bufCap → s.bOff.toNat + s.bLen.toNat ≤ s.chip.bufCap →
      ¬ slicesOverlap s → s.bLen.toNat < stuffMax s.aLen.toNat →
      ∃ t, exec .stuff s = .next t ∧ FailsWith t 8 (stuffMax s.aLen.toNat) s.bLen.toNat ∧
        KeepsAllElse s t)

/-- R118: `UNSTUFF` writes the unstuffed bytes to the start of slice A and returns their range; data that
is not stuffed is a `FramingError`, which spoils slice A and nothing else. -/
def Obligations.UnstuffWorksInPlace : Prop :=
  decode 0x05#8 = .ok .unstuff ∧
  ∀ s : State,
    (∀ r, s.aOff.toNat + s.aLen.toNat ≤ s.chip.bufCap →
      unstuff (stripTerm (sliceA Config.env s)) = some r →
      ∃ t, exec .unstuff s = .next t ∧ Succeeds t s.aOff.toNat r.length 0 0 ∧
        readBytes Config.env t s.aOff.toNat r.length = r ∧
        KeepsBufOutside s t s.aOff.toNat s.aLen.toNat ∧
        KeepsOperands s t ∧ KeepsPacket s t ∧ KeepsOut s t) ∧
    (s.aOff.toNat + s.aLen.toNat ≤ s.chip.bufCap →
      unstuff (stripTerm (sliceA Config.env s)) = none →
      ∃ t, exec .unstuff s = .next t ∧ FailsWith t 1 0 0 ∧
        KeepsBufOutside s t s.aOff.toNat s.aLen.toNat ∧
        KeepsOperands s t ∧ KeepsPacket s t ∧ KeepsOut s t) ∧
    (s.chip.bufCap < s.aOff.toNat + s.aLen.toNat →
      ∃ t, exec .unstuff s = .next t ∧ FailsWith t 15 2 0 ∧ KeepsAllElse s t)

/-- R131, R132: `ENCSIZE` always succeeds, with `2 * L + ceil(L / 254) + 1` in `R_VAL`, where `L` is 13
more than `PK_PLEN`. -/
def Obligations.EncsizeGivesTheSliceLength : Prop :=
  decode 0x06#8 = .ok .encsize ∧
  ∀ s : State, ∃ t, exec .encsize s = .next t ∧
    Succeeds t 0 0 0 (2 * (13 + s.pkPlen.toNat) + (13 + s.pkPlen.toNat + 253) / 254 + 1) ∧
    KeepsAllElse s t

/-- R133, R134, R135: `ENCODE` writes the raw frame of the packet register, then its wire frame, into
slice A and returns the wire frame's range; its errors change nothing. -/
def Obligations.EncodeWritesTheWireFrame : Prop :=
  decode 0x07#8 = .ok .encode ∧
  ∀ s : State,
    (s.aOff.toNat + s.aLen.toNat ≤ s.chip.bufCap → devAssigned s.chip s.pkDev = true →
      encSize s.pkPlen.toNat ≤ s.aLen.toNat →
      ∃ t f, exec .encode s = .next t ∧ f = frameRaw Config.env s.chip (pkPacket s) ∧
        f.length = 13 + s.pkPlen.toNat ∧
        Succeeds t (s.aOff.toNat + (13 + s.pkPlen.toNat)) ((stuff f).length + 1) 0 0 ∧
        readBytes Config.env t s.aOff.toNat (13 + s.pkPlen.toNat) = f ∧
        readBytes Config.env t (s.aOff.toNat + (13 + s.pkPlen.toNat)) ((stuff f).length + 1)
          = stuff f ++ [0#8] ∧
        0#8 ∉ stuff f ∧
        KeepsBufOutside s t s.aOff.toNat s.aLen.toNat ∧
        KeepsOperands s t ∧ KeepsPacket s t ∧ KeepsOut s t) ∧
    (s.chip.bufCap < s.aOff.toNat + s.aLen.toNat →
      ∃ t, exec .encode s = .next t ∧ FailsWith t 15 2 0 ∧ KeepsAllElse s t) ∧
    (s.aOff.toNat + s.aLen.toNat ≤ s.chip.bufCap → devAssigned s.chip s.pkDev = false →
      ∃ t, exec .encode s = .next t ∧ FailsWith t 15 6 0 ∧ KeepsAllElse s t) ∧
    (s.aOff.toNat + s.aLen.toNat ≤ s.chip.bufCap → devAssigned s.chip s.pkDev = true →
      s.aLen.toNat < encSize s.pkPlen.toNat →
      ∃ t, exec .encode s = .next t ∧ FailsWith t 8 (encSize s.pkPlen.toNat) s.aLen.toNat ∧
        KeepsAllElse s t)

/-- R153, R154: `DECODE1` puts the packet of the frame in slice A into the packet register, or ends with
the frame's error and leaves the packet register alone; either way it spoils slice A and no other byte. -/
def Obligations.Decode1RecoversThePacket : Prop :=
  decode 0x08#8 = .ok .decode1 ∧
  ∀ s : State,
    (∀ p, s.aOff.toNat + s.aLen.toNat ≤ s.chip.bufCap →
      decodeFrame Config.env s.chip (sliceA Config.env s) = .ok p →
      ∃ t, exec .decode1 s = .next t ∧ Succeeds t 0 0 0 0 ∧
        t.pkKind = p.kind ∧ t.pkDev = p.dev.setWidth 8 ∧ t.pkTs = p.ts ∧
        t.pkPlen.toNat = p.payload.length ∧ pkPayload t = p.payload ∧
        KeepsBufOutside s t s.aOff.toNat s.aLen.toNat ∧ KeepsOperands s t ∧ KeepsOut s t) ∧
    (∀ err, s.aOff.toNat + s.aLen.toNat ≤ s.chip.bufCap →
      decodeFrame Config.env s.chip (sliceA Config.env s) = .error err →
      ∃ t, exec .decode1 s = .next t ∧ FailsBy t err ∧
        KeepsBufOutside s t s.aOff.toNat s.aLen.toNat ∧
        KeepsOperands s t ∧ KeepsPacket s t ∧ KeepsOut s t) ∧
    (s.chip.bufCap < s.aOff.toNat + s.aLen.toNat →
      ∃ t, exec .decode1 s = .next t ∧ FailsWith t 15 2 0 ∧ KeepsAllElse s t)

/-- R171: `DECODES` puts the packets of the stream in slice A into `OUT` from slot 0 on and returns the
remainder; on the first bad frame it ends with that frame's error. R66: it spoils only the bytes before the
final cursor, or before the failing frame's delimiter. -/
def Obligations.DecodesRecoversTheStream : Prop :=
  decode 0x09#8 = .ok .decodes ∧
  ∀ s : State,
    (∀ cur pkts, s.aOff.toNat + s.aLen.toNat ≤ s.chip.bufCap → s.outCap.toNat ≤ s.chip.outSlots →
      decodeStream Config.env s.chip (sliceA Config.env s) s.outCap.toNat = .ok cur pkts →
      ∃ t, exec .decodes s = .next t ∧
        Succeeds t (s.aOff.toNat + cur) (s.aLen.toNat - cur) pkts.length 0 ∧
        (∀ i, (h : i < pkts.length) → slotPacket (readOut Config.env t i) = pkts[i]) ∧
        KeepsBufOutside s t s.aOff.toNat cur ∧ KeepsOperands s t ∧ KeepsPacket s t) ∧
    (∀ err z k, s.aOff.toNat + s.aLen.toNat ≤ s.chip.bufCap → s.outCap.toNat ≤ s.chip.outSlots →
      decodeStream Config.env s.chip (sliceA Config.env s) s.outCap.toNat = .err err z k →
      ∃ t, exec .decodes s = .next t ∧ FailsBy t err ∧
        KeepsBufOutside s t s.aOff.toNat z ∧ KeepsOperands s t ∧ KeepsPacket s t) ∧
    (s.chip.bufCap < s.aOff.toNat + s.aLen.toNat →
      ∃ t, exec .decodes s = .next t ∧ FailsWith t 15 2 0 ∧ KeepsAllElse s t) ∧
    (s.aOff.toNat + s.aLen.toNat ≤ s.chip.bufCap → s.chip.outSlots < s.outCap.toNat →
      ∃ t, exec .decodes s = .next t ∧ FailsWith t 15 5 0 ∧ KeepsAllElse s t)

/-- The remainder and the other slots after `DECODES`, from R172 and R173; what the two say of slots and of
the delimiter the spec marks `[derived]`: the remainder is unchanged byte for byte, a success writes only the
slots of the packets, a failure no slot from `OUT_CAP` on and no byte from the failing frame's delimiter on. -/
def Obligations.DecodesKeepsTheRest : Prop :=
  ∀ s : State, s.aOff.toNat + s.aLen.toNat ≤ s.chip.bufCap → s.outCap.toNat ≤ s.chip.outSlots →
    (∀ cur pkts, decodeStream Config.env s.chip (sliceA Config.env s) s.outCap.toNat = .ok cur pkts →
      ∃ t, exec .decodes s = .next t ∧ KeepsOutFrom s t pkts.length ∧
        readBytes Config.env t t.rOff.toNat t.rLen.toNat = (sliceA Config.env s).drop cur) ∧
    (∀ err z k, decodeStream Config.env s.chip (sliceA Config.env s) s.outCap.toNat = .err err z k →
      ∃ t, exec .decodes s = .next t ∧ KeepsOutFrom s t s.outCap.toNat ∧
        (sliceA Config.env t).drop z = (sliceA Config.env s).drop z)

/-! ### The whole machine -/

/-- R202: every command ends, on every state, with `Ok` or with one of the errors of R186; and there is no
stuck state and no fault outcome, so that every step answers a next state. -/
def Obligations.EveryCommandEnds : Prop :=
  (∀ (i : Instr) (s : State), ∃ t, exec i s = .next t ∧
    (t.status = 0#8 ∨ ∃ err : CmdError, t.status = errorCode err)) ∧
  (∀ s : State, ∃ t, step s = .next t)

/-- R197: `raise` records the code and the two fields, and changes nothing else: no handler, no saved
program counter, no mode. -/
def Obligations.RaiseRecordsTheErrorOnly : Prop :=
  ∀ (err : CmdError) (s : State),
    (raise err s).status = errorCode err ∧ (raise err s).eA = errorInfoA err ∧
    (raise err s).eB = errorInfoB err ∧ errorCode err ≠ 0#8 ∧
    (∀ r, r ≠ .status → r ≠ .eA → r ≠ .eB → readReg (raise err s) r = readReg s r) ∧
    (raise err s).pld = s.pld ∧ (raise err s).buf = s.buf ∧ (raise err s).out = s.out ∧
    (raise err s).chip = s.chip ∧ (raise err s).moves = s.moves

/-- R39, and R24 on the error registers: every command first clears the results, so it does not see what an
earlier command left there; after an error the result registers read 0, after a success the error registers
do. -/
def Obligations.ResultClearingComesFirst : Prop :=
  (∀ s : State, Succeeds (clearResults s) 0 0 0 0 ∧ KeepsAllElse s (clearResults s)) ∧
  (∀ (i : Instr) (s : State), exec i (clearResults s) = exec i s) ∧
  (∀ (i : Instr) (s t : State), exec i s = .next t →
    (t.status ≠ 0#8 → t.rOff = 0#32 ∧ t.rLen = 0#32 ∧ t.rCnt = 0#32 ∧ t.rVal = 0#32) ∧
    (t.status = 0#8 → t.eA = 0#32 ∧ t.eB = 0#32))

/-- R186: the code and the two information fields of each error. -/
def Obligations.ErrorCodesAndFields : Prop :=
  ∀ (n m : Nat) (b : Byte) (x y : BitVec 16),
    (errorCode .framingError, errorInfoA .framingError, errorInfoB .framingError) = (1, 0, 0) ∧
    (errorCode (.bufferTooShort n), errorInfoA (.bufferTooShort n), errorInfoB (.bufferTooShort n))
      = (2, BitVec.ofNat 32 n, 0) ∧
    (errorCode (.unsupportedVersion b), errorInfoA (.unsupportedVersion b),
      errorInfoB (.unsupportedVersion b)) = (3, b.setWidth 32, 0) ∧
    (errorCode (.invalidChecksum x y), errorInfoA (.invalidChecksum x y),
      errorInfoB (.invalidChecksum x y)) = (4, x.setWidth 32, y.setWidth 32) ∧
    (errorCode (.invalidLength n b), errorInfoA (.invalidLength n b), errorInfoB (.invalidLength n b))
      = (5, BitVec.ofNat 32 n, b.setWidth 32) ∧
    (errorCode (.invalidId b), errorInfoA (.invalidId b), errorInfoB (.invalidId b))
      = (6, b.setWidth 32, 0) ∧
    (errorCode (.payloadTooLong n), errorInfoA (.payloadTooLong n), errorInfoB (.payloadTooLong n))
      = (7, BitVec.ofNat 32 n, 0) ∧
    (errorCode (.bufferTooSmall n m), errorInfoA (.bufferTooSmall n m), errorInfoB (.bufferTooSmall n m))
      = (8, BitVec.ofNat 32 n, BitVec.ofNat 32 m) ∧
    (errorCode (.operandError n), errorInfoA (.operandError n), errorInfoB (.operandError n))
      = (15, BitVec.ofNat 32 n, 0)

/-- R26: bits 7 to 4 of `STATUS` are 0 after every command, and bits 3 to 0 hold a code that exists (section
1 of `60_exceptions.md`: 9 to 14 are never produced); every host move but a command and a reset keeps it. -/
def Obligations.StatusHoldsOnlyKnownCodes : Prop :=
  (∀ (i : Instr) (s t : State), exec i s = .next t →
    t.status.extractLsb' 4 4 = 0#4 ∧ (t.status.toNat ≤ 8 ∨ t.status.toNat = 15)) ∧
  (∀ (m : HostMove) (s t : State), (∀ v, m ≠ .set .cmd v) → m ≠ .reset →
    hostMove m s = .next t → t.status = s.status)

/-- R22 ("No command writes an operand register"): after any command the operand registers, `CMD` and the
constants are what they were. -/
def Obligations.NoCommandWritesAnOperandRegister : Prop :=
  ∀ (i : Instr) (s t : State), exec i s = .next t → KeepsOperands s t

/-- Law R198, marked `[derived]` in the spec: a failed command never changes the packet register, and one
that ends with `OperandError`, `PayloadTooLong` or `BufferTooSmall` changes no memory. -/
def Obligations.FailedCommandKeepsThePacketRegister : Prop :=
  ∀ (i : Instr) (s t : State), exec i s = .next t → t.status ≠ 0#8 →
    KeepsPacket s t ∧ ((t.status = 15#8 ∨ t.status = 7#8 ∨ t.status = 8#8) → KeepsBuf s t ∧ KeepsOut s t)

/-- R66: a command writes no byte of `BUF` outside its destination slice, and `DECODES` none from the
final cursor on, or from the failing frame's delimiter on. -/
def Obligations.WritesStayInTheDestination : Prop :=
  ∀ (i : Instr) (s t : State), exec i s = .next t →
    KeepsBufOutside s t (writeRange i s).1 (writeRange i s).2

/-- `10_state.md` sections 3 and 4: only `DECODES` writes `OUT`, and only `PLOAD` and `DECODE1` write the
packet register. -/
def Obligations.OnlyDecodesWritesOutAndOnlyPloadAndDecode1WritePacket : Prop :=
  ∀ (i : Instr) (s t : State), exec i s = .next t →
    (i ≠ .decodes → KeepsOut s t) ∧
    (i ≠ .decode1 → t.pkKind = s.pkKind ∧ t.pkDev = s.pkDev ∧ t.pkTs = s.pkTs) ∧
    (i ≠ .pload → i ≠ .decode1 → t.pkPlen = s.pkPlen ∧ t.pld = s.pld)

/-- `10_state.md` section 5 ("Hidden state. ZBSF has none"): the results of a command are a function of
its inputs; nothing of earlier commands, of the old results, of `OUT`, of payload padding or of the draws
reaches them. -/
def Obligations.ResultsDependOnInputsOnly : Prop :=
  ∀ (i : Instr) (s s' t t' : State), SameInputs s s' → exec i s = .next t → exec i s' = .next t' →
    t'.status = t.status ∧ t'.eA = t.eA ∧ t'.eB = t.eB ∧ t'.rOff = t.rOff ∧ t'.rLen = t.rLen ∧
    t'.rCnt = t.rCnt ∧ t'.rVal = t.rVal ∧ t'.pkKind = t.pkKind ∧ t'.pkDev = t.pkDev ∧
    t'.pkTs = t.pkTs ∧ t'.pkPlen = t.pkPlen ∧ pkPayload t' = pkPayload t ∧
    readBytes Config.env t' t'.rOff.toNat t'.rLen.toNat = readBytes Config.env t t.rOff.toNat t.rLen.toNat ∧
    (∀ j, j < t.rCnt.toNat → slotPacket (readOut Config.env t' j) = slotPacket (readOut Config.env t j))

/-- `20_memory.md` section 3: `DEVCHK`, `CRC16` and `ENCSIZE` are idempotent. -/
def Obligations.QueriesAreIdempotent : Prop :=
  ∀ (i : Instr) (s t : State), (i = .devchk ∨ i = .crc16 ∨ i = .encsize) → exec i s = .next t →
    exec i t = .next t

/-- Every step keeps the invariant: memories in canonical form listing only cells that exist, the result
registers naming cells that exist, `STATUS` a known code with results and error information exclusive. -/
def Obligations.StepKeepsInv : Prop := ∀ s t : State, Inv s → step s = .next t → Inv t

/-- The invariant holds after reset. -/
def Obligations.ResetHasInv : Prop := Inv State.reset

/-! ### Stuffing -/

/-- R113: stuffed data has no zero byte; a run of fewer than 254 non-zero bytes becomes one block and the zero after it is implied; a
run of 254 becomes a full block that implies none; data ending in a zero gets a last empty block. -/
def Obligations.StuffFollowsTheBlockRule : Prop :=
  (∀ raw : List Byte, 0#8 ∉ stuff raw) ∧
  stuff [] = [0x01#8] ∧
  (∀ run : List Byte, 0#8 ∉ run → run.length < 254 →
    stuff run = BitVec.ofNat 8 (run.length + 1) :: run) ∧
  (∀ run after : List Byte, 0#8 ∉ run → run.length < 254 →
    stuff (run ++ 0#8 :: after) = BitVec.ofNat 8 (run.length + 1) :: (run ++ stuff after)) ∧
  (∀ run : List Byte, 0#8 ∉ run → run.length = 254 → stuff run = 0xFF#8 :: run) ∧
  (∀ run after : List Byte, 0#8 ∉ run → run.length = 254 → after ≠ [] →
    stuff (run ++ after) = 0xFF#8 :: (run ++ stuff after))

/-- R116: the empty sequence unstuffs to itself; a zero code byte, a block that runs past the end and a
zero inside a block are framing errors; otherwise the block's data, the implied zero where there is one,
and what the rest unstuffs to. -/
def Obligations.UnstuffFollowsTheBlockRule : Prop :=
  unstuff [] = some [] ∧
  (∀ rest : List Byte, unstuff (0#8 :: rest) = none) ∧
  (∀ (c : Byte) (rest : List Byte), rest.length < c.toNat - 1 → unstuff (c :: rest) = none) ∧
  (∀ (c : Byte) (blk after : List Byte), c ≠ 0#8 → blk.length = c.toNat - 1 → 0#8 ∈ blk →
    unstuff (c :: (blk ++ after)) = none) ∧
  (∀ (c : Byte) (blk after : List Byte), c ≠ 0#8 → blk.length = c.toNat - 1 → 0#8 ∉ blk →
    unstuff (c :: (blk ++ after)) =
      (unstuff after).map fun out => blk ++ (if c ≠ 0xFF#8 ∧ after ≠ [] then [0#8] else []) ++ out)

/-- R117: at most one zero is dropped, and only at the end. -/
def Obligations.StripTermDropsOneTrailingZero : Prop :=
  (∀ s : List Byte, stripTerm (s ++ [0#8]) = s) ∧
  (∀ (s : List Byte) (b : Byte), b ≠ 0#8 → stripTerm (s ++ [b]) = s ++ [b]) ∧
  stripTerm [] = []

/-- R114: the worst-case stuffed length, its bounds, and that data without a zero reaches it. -/
def Obligations.StuffedLengthIsBounded : Prop :=
  stuffMax 0 = 1 ∧ (∀ n, 1 ≤ n → stuffMax n = n + (n + 253) / 254) ∧
  (stuff []).length = 1 ∧
  (∀ raw : List Byte, raw ≠ [] →
    raw.length + 1 ≤ (stuff raw).length ∧ (stuff raw).length ≤ stuffMax raw.length) ∧
  (∀ raw : List Byte, 0#8 ∉ raw → (stuff raw).length = stuffMax raw.length)

/-- Law R121, marked `[derived]` in the spec: unstuffing inverts stuffing, with the terminator and
without. -/
def Obligations.UnstuffInvertsStuff : Prop :=
  ∀ raw : List Byte, unstuff (stuff raw) = some raw ∧ unstuff (stripTerm (stuff raw ++ [0#8])) = some raw

/-- Law R121, second half: the two families of data that `unstuff` maps as it maps a canonical form. -/
def Obligations.NonCanonicalFormsUnstuff : Prop :=
  (∀ d : List Byte, 0#8 ∉ d → d.length = 254 →
    unstuff (0xFF#8 :: (d ++ [0x01#8])) = some d ∧ unstuff (0xFF#8 :: d) = some d ∧
    stuff d ≠ 0xFF#8 :: (d ++ [0x01#8])) ∧
  unstuff [] = some [] ∧ unstuff [0x01#8] = some []

/-- Laws R119 and R122, marked `[derived]` in the spec: unstuffed data is shorter than what it came from,
and stuffing adds exactly one byte where no run of 254 non-zero bytes stands. -/
def Obligations.StuffingLengthLaws : Prop :=
  (∀ s out : List Byte, s ≠ [] → unstuff s = some out → out.length + 1 ≤ s.length) ∧
  (∀ raw : List Byte, raw ≠ [] → (∀ i, i + 254 ≤ raw.length → 0#8 ∈ (raw.drop i).take 254) →
    (stuff raw).length = raw.length + 1)

/-! ### Frames -/

/-- R130: the bytes of a raw frame. -/
def Obligations.RawFrameLayout : Prop :=
  ∀ (e : Env) (c : Chip) (p : Packet), p.payload.length ≤ 255 →
    ∃ head, head = [c.version, BitVec.ofNat 8 p.payload.length,
        BitVec.ofNat 8 (p.kind.toNat * 128 + p.dev.toNat * 4)] ++
        [p.ts.extractLsb' 0 8, p.ts.extractLsb' 8 8, p.ts.extractLsb' 16 8, p.ts.extractLsb' 24 8,
         p.ts.extractLsb' 32 8, p.ts.extractLsb' 40 8, p.ts.extractLsb' 48 8, p.ts.extractLsb' 56 8] ∧
      frameRaw e c p = head ++ p.payload ++
        [(e.crc16 (head ++ p.payload)).extractLsb' 0 8, (e.crc16 (head ++ p.payload)).extractLsb' 8 8] ∧
      (frameRaw e c p).length = 13 + p.payload.length

/-- R74: assembling and decoding the control byte, bits 1 to 0 aside. -/
def Obligations.ControlByteFields : Prop :=
  ∀ (k : BitVec 1) (d : BitVec 5) (low : Byte), low.toNat < 4 →
    (controlByte k d).toNat = k.toNat * 128 + d.toNat * 4 ∧
    controlKind (controlByte k d ||| low) = k ∧ controlDev (controlByte k d ||| low) = d

/-- `00_scope.md` section 5, `20_memory.md` section 2: `from_le` inverts `le16` and `le64`. -/
def Obligations.LittleEndianRoundTrip : Prop :=
  (∀ v : BitVec 16, fromLe (le16 v) = v.toNat) ∧ (∀ v : BitVec 64, fromLe (le64 v) = v.toNat)

/-- R144 with its steps R147 to R152: the validation order, the first failure wins. -/
def Obligations.DecodeFrameValidatesInOrder : Prop :=
  ∀ (e : Env) (c : Chip) (s : List Byte),
    (unstuff (stripTerm s) = none → decodeFrame e c s = .error .framingError) ∧
    ∀ f, unstuff (stripTerm s) = some f →
      (f.length < 13 → decodeFrame e c s = .error (.bufferTooShort f.length)) ∧
      (13 ≤ f.length →
        ∀ v n ctl : Byte, f[0]? = some v → f[1]? = some n → f[2]? = some ctl →
          ∀ found : BitVec 16, found.toNat = fromLe (f.drop (f.length - 2)) →
          (v ≠ c.version → decodeFrame e c s = .error (.unsupportedVersion v)) ∧
          (v = c.version → e.crc16 (f.take (f.length - 2)) ≠ found →
            decodeFrame e c s = .error (.invalidChecksum (e.crc16 (f.take (f.length - 2))) found)) ∧
          (v = c.version → e.crc16 (f.take (f.length - 2)) = found → n.toNat ≠ f.length - 13 →
            decodeFrame e c s = .error (.invalidLength (f.length - 13) n)) ∧
          (v = c.version → e.crc16 (f.take (f.length - 2)) = found → n.toNat = f.length - 13 →
            devAssigned c ((ctl.extractLsb' 2 5).setWidth 8) = false →
            decodeFrame e c s = .error (.invalidId ((ctl.extractLsb' 2 5).setWidth 8))) ∧
          (v = c.version → e.crc16 (f.take (f.length - 2)) = found → n.toNat = f.length - 13 →
            devAssigned c ((ctl.extractLsb' 2 5).setWidth 8) = true →
            ∃ p, decodeFrame e c s = .ok p ∧ p.kind = ctl.extractLsb' 7 1 ∧ p.dev = ctl.extractLsb' 2 5 ∧
              p.ts.toNat = fromLe ((f.drop 3).take 8) ∧ p.payload = (f.take (f.length - 2)).drop 11))

/-- Property R156, marked `[derived]` in the spec: every valid packet survives framing and decoding, with
the terminator and without, whatever the checksum function and the constants are. -/
def Obligations.FrameRoundTrip : Prop :=
  ∀ (e : Env) (c : Chip) (p : Packet), ValidPacket c p →
    decodeFrame e c (stuff (frameRaw e c p) ++ [0#8]) = .ok p ∧
    decodeFrame e c (stuff (frameRaw e c p)) = .ok p

/-- Law R155, marked `[derived]` in the spec: nothing that unstuffs to more than 268 bytes decodes, and a
decoded packet is a valid one. -/
def Obligations.DecodedPacketsAreValid : Prop :=
  ∀ (e : Env) (c : Chip) (s : List Byte) (p : Packet), decodeFrame e c s = .ok p →
    ValidPacket c p ∧ ∃ f, unstuff (stripTerm s) = some f ∧ f.length = 13 + p.payload.length ∧
      f.length ≤ 268

/-- Property R158, marked `[derived]` in the spec: any change of the version byte alone is reported as
`UnsupportedVersion`, whatever the checksum says. -/
def Obligations.VersionGate : Prop :=
  ∀ (e : Env) (c : Chip) (p : Packet) (v : Byte), v ≠ c.version →
    decodeFrame e c (stuff (v :: (frameRaw e c p).tail) ++ [0#8]) = .error (.unsupportedVersion v)

/-- Property R157, marked `[derived]` in the spec, in the form that needs no property of the checksum: a
frame whose covered bytes were changed after the version byte, to bytes of another checksum, is reported
as `InvalidChecksum`, with the recomputed and the embedded value. -/
def Obligations.ChangedBytesFailTheChecksum : Prop :=
  ∀ (e : Env) (c : Chip) (p : Packet) (body : List Byte), p.payload.length ≤ 255 →
    body.length = (frameBody c p).length → body.head? = some c.version →
    e.crc16 body ≠ e.crc16 (frameBody c p) →
    decodeFrame e c (stuff (body ++ le16 (e.crc16 (frameBody c p))) ++ [0#8])
      = .error (.invalidChecksum (e.crc16 body) (e.crc16 (frameBody c p)))

/-- Laws R136 and R137, and that the wire frame fits behind the raw one (R133), all marked `[derived]` in the
spec: a wire frame ends with its only zero byte and has 15 to 271 bytes; two more than the raw frame for a
payload of at most 240 bytes. -/
def Obligations.WireFrameShape : Prop :=
  ∀ (e : Env) (c : Chip) (p : Packet), p.payload.length ≤ 255 →
    (∃ w, wireFrame e c p = w ++ [0#8] ∧ 0#8 ∉ w) ∧
    15 ≤ (wireFrame e c p).length ∧ (wireFrame e c p).length ≤ 271 ∧
    (frameRaw e c p).length + (wireFrame e c p).length ≤ encSize p.payload.length ∧
    (p.payload.length ≤ 240 → (wireFrame e c p).length = 13 + p.payload.length + 2)

/-! ### Streams -/

/-- R165 to R169: with no slot left or no zero byte in sight the loop ends and leaves the rest; else the
bytes up to the next zero byte are one frame: its error ends the call, its packet goes before those of the
rest. -/
def Obligations.StreamFollowsItsSteps : Prop :=
  ∀ (e : Env) (c : Chip) (cap : Nat),
    (∀ bytes, decodeStream e c bytes 0 = .ok 0 []) ∧
    (∀ bytes, 0#8 ∉ bytes → decodeStream e c bytes cap = .ok 0 []) ∧
    (∀ frame rest err, 0#8 ∉ frame → decodeFrame e c frame = .error err →
      decodeStream e c (frame ++ 0#8 :: rest) (cap + 1) = .err err frame.length 0) ∧
    (∀ frame rest p, 0#8 ∉ frame → decodeFrame e c frame = .ok p →
      (∀ cur pkts, decodeStream e c rest cap = .ok cur pkts →
        decodeStream e c (frame ++ 0#8 :: rest) (cap + 1) = .ok (frame.length + 1 + cur) (p :: pkts)) ∧
      (∀ err z k, decodeStream e c rest cap = .err err z k →
        decodeStream e c (frame ++ 0#8 :: rest) (cap + 1) = .err err (frame.length + 1 + z) (k + 1)))

/-- Laws R176 and R177, marked `[derived]` in the spec: an empty frame aborts the call; with no capacity
or no zero byte nothing is consumed. -/
def Obligations.StreamDegenerateCalls : Prop :=
  ∀ (e : Env) (c : Chip) (bytes : List Byte) (cap : Nat),
    decodeStream e c (0#8 :: bytes) (cap + 1) = .err (.bufferTooShort 0) 0 0 ∧
    decodeStream e c bytes 0 = .ok 0 [] ∧
    (0#8 ∉ bytes → decodeStream e c bytes cap = .ok 0 [])

/-- Law R179, marked `[derived]` in the spec: a stream decode decodes at most `cap` packets and at most one
per zero byte, consumes at most the slice, and stops just after a zero byte or at the start; a failing
frame's delimiter is a zero byte of the slice. -/
def Obligations.StreamProgress : Prop :=
  ∀ (e : Env) (c : Chip) (bytes : List Byte) (cap : Nat),
    (∀ cur pkts, decodeStream e c bytes cap = .ok cur pkts →
      pkts.length ≤ cap ∧ pkts.length ≤ bytes.count 0#8 ∧ cur ≤ bytes.length ∧
      (cur = 0 ∨ bytes[cur - 1]? = some 0#8)) ∧
    (∀ err z k, decodeStream e c bytes cap = .err err z k → k < cap ∧ bytes[z]? = some 0#8)

/-- Properties R180 and R181, marked `[derived]` in the spec: from the wire frames of valid packets and an
incomplete rest, a stream decode takes the first `cap` packets, in order, and consumes exactly their wire
frames. -/
def Obligations.StreamDecodesConcatenatedFrames : Prop :=
  ∀ (e : Env) (c : Chip) (ps : List Packet) (rest : List Byte) (cap : Nat),
    (∀ p ∈ ps, ValidPacket c p) → 0#8 ∉ rest →
    decodeStream e c ((ps.map (wireFrame e c)).flatten ++ rest) cap =
      .ok ((ps.take cap).map (wireFrame e c)).flatten.length (ps.take cap)

/-- Law R182, marked `[derived]` in the spec: one call with capacity `a + b` is a call with capacity `a`
followed by one with capacity `b` on its remainder. -/
def Obligations.StreamSplitsAtACapacity : Prop :=
  ∀ (e : Env) (c : Chip) (bytes : List Byte) (a b : Nat),
    (∀ err z k, decodeStream e c bytes a = .err err z k →
      decodeStream e c bytes (a + b) = .err err z k) ∧
    (∀ cur pkts, decodeStream e c bytes a = .ok cur pkts →
      (∀ cur' pkts', decodeStream e c (bytes.drop cur) b = .ok cur' pkts' →
        decodeStream e c bytes (a + b) = .ok (cur + cur') (pkts ++ pkts')) ∧
      (∀ err z k, decodeStream e c (bytes.drop cur) b = .err err z k →
        decodeStream e c bytes (a + b) = .err err (cur + z) (pkts.length + k)))

/-- Law R174, marked `[derived]` in the spec: when the host presents the remainder and then new bytes,
the two calls together consume and decode what one call on the unbroken stream would. -/
def Obligations.StreamGoesOnAcrossDeliveries : Prop :=
  ∀ (e : Env) (c : Chip) (bytes new : List Byte) (cap b cur : Nat) (pkts : List Packet),
    decodeStream e c bytes cap = .ok cur pkts →
    ∀ cur' pkts', decodeStream e c (bytes.drop cur ++ new) b = .ok cur' pkts' →
      decodeStream e c (bytes ++ new) (pkts.length + b) = .ok (cur + cur') (pkts ++ pkts') ∧
      (bytes ++ new).drop (cur + cur') = (bytes.drop cur ++ new).drop cur'

/-! ### The two ends together -/

/-- Property R156 on the machine (program P1 of `95_test_vectors.md`): after a successful `ENCODE`,
pointing slice A at the returned range and running `DECODE1` gives back the same packet, whatever the host
wrote to the packet registers between. -/
def Obligations.EncodeThenDecode1Loopback : Prop :=
  ∀ (s t : State) (k d ts : Nat),
    s.aOff.toNat + s.aLen.toNat ≤ s.chip.bufCap → devAssigned s.chip s.pkDev = true →
    encSize s.pkPlen.toNat ≤ s.aLen.toNat → exec .encode s = .next t →
    ∃ u, exec .decode1 (writeReg .aLen t.rLen.toNat (writeReg .aOff t.rOff.toNat
        (writeReg .pkTs ts (writeReg .pkDev d (writeReg .pkKind k t))))) = .next u ∧
      u.status = 0#8 ∧ u.pkKind = s.pkKind ∧ u.pkDev = s.pkDev ∧ u.pkTs = s.pkTs ∧
      u.pkPlen = s.pkPlen ∧ pkPayload u = pkPayload s
end

