-- ==== Sys2Proof/Laws/State.lean ====
section
/-! SUPPORT. One lemma per field per update of State, so that no proof unfolds a record update. -/

namespace Sys2Proof.Machine

/-! ### `writeBytes` -/

section
variable (off : Nat) (bs : List Byte) (s : State)

@[simp] theorem writeBytes_cmd : (writeBytes off bs s).cmd = s.cmd := rfl
@[simp] theorem writeBytes_status : (writeBytes off bs s).status = s.status := rfl
@[simp] theorem writeBytes_eA : (writeBytes off bs s).eA = s.eA := rfl
@[simp] theorem writeBytes_eB : (writeBytes off bs s).eB = s.eB := rfl
@[simp] theorem writeBytes_aOff : (writeBytes off bs s).aOff = s.aOff := rfl
@[simp] theorem writeBytes_aLen : (writeBytes off bs s).aLen = s.aLen := rfl
@[simp] theorem writeBytes_bOff : (writeBytes off bs s).bOff = s.bOff := rfl
@[simp] theorem writeBytes_bLen : (writeBytes off bs s).bLen = s.bLen := rfl
@[simp] theorem writeBytes_outCap : (writeBytes off bs s).outCap = s.outCap := rfl
@[simp] theorem writeBytes_rOff : (writeBytes off bs s).rOff = s.rOff := rfl
@[simp] theorem writeBytes_rLen : (writeBytes off bs s).rLen = s.rLen := rfl
@[simp] theorem writeBytes_rCnt : (writeBytes off bs s).rCnt = s.rCnt := rfl
@[simp] theorem writeBytes_rVal : (writeBytes off bs s).rVal = s.rVal := rfl
@[simp] theorem writeBytes_pkKind : (writeBytes off bs s).pkKind = s.pkKind := rfl
@[simp] theorem writeBytes_pkDev : (writeBytes off bs s).pkDev = s.pkDev := rfl
@[simp] theorem writeBytes_pkTs : (writeBytes off bs s).pkTs = s.pkTs := rfl
@[simp] theorem writeBytes_pkPlen : (writeBytes off bs s).pkPlen = s.pkPlen := rfl
@[simp] theorem writeBytes_pld : (writeBytes off bs s).pld = s.pld := rfl
@[simp] theorem writeBytes_buf : (writeBytes off bs s).buf = memSetFrom s.buf off bs := rfl
@[simp] theorem writeBytes_out : (writeBytes off bs s).out = s.out := rfl
@[simp] theorem writeBytes_chip : (writeBytes off bs s).chip = s.chip := rfl
@[simp] theorem writeBytes_resets : (writeBytes off bs s).resets = s.resets := rfl
@[simp] theorem writeBytes_draws : (writeBytes off bs s).draws = s.draws := rfl
@[simp] theorem writeBytes_moves : (writeBytes off bs s).moves = s.moves := rfl

end

/-! ### `scramble` -/

section
variable (e : Env) (off n : Nat) (s : State)

@[simp] theorem scramble_cmd : (scramble e off n s).cmd = s.cmd := rfl
@[simp] theorem scramble_status : (scramble e off n s).status = s.status := rfl
@[simp] theorem scramble_eA : (scramble e off n s).eA = s.eA := rfl
@[simp] theorem scramble_eB : (scramble e off n s).eB = s.eB := rfl
@[simp] theorem scramble_aOff : (scramble e off n s).aOff = s.aOff := rfl
@[simp] theorem scramble_aLen : (scramble e off n s).aLen = s.aLen := rfl
@[simp] theorem scramble_bOff : (scramble e off n s).bOff = s.bOff := rfl
@[simp] theorem scramble_bLen : (scramble e off n s).bLen = s.bLen := rfl
@[simp] theorem scramble_outCap : (scramble e off n s).outCap = s.outCap := rfl
@[simp] theorem scramble_rOff : (scramble e off n s).rOff = s.rOff := rfl
@[simp] theorem scramble_rLen : (scramble e off n s).rLen = s.rLen := rfl
@[simp] theorem scramble_rCnt : (scramble e off n s).rCnt = s.rCnt := rfl
@[simp] theorem scramble_rVal : (scramble e off n s).rVal = s.rVal := rfl
@[simp] theorem scramble_pkKind : (scramble e off n s).pkKind = s.pkKind := rfl
@[simp] theorem scramble_pkDev : (scramble e off n s).pkDev = s.pkDev := rfl
@[simp] theorem scramble_pkTs : (scramble e off n s).pkTs = s.pkTs := rfl
@[simp] theorem scramble_pkPlen : (scramble e off n s).pkPlen = s.pkPlen := rfl
@[simp] theorem scramble_pld : (scramble e off n s).pld = s.pld := rfl
@[simp] theorem scramble_buf : (scramble e off n s).buf = memSetFrom s.buf off (anyBytes e s.draws n) := rfl
@[simp] theorem scramble_out : (scramble e off n s).out = s.out := rfl
@[simp] theorem scramble_chip : (scramble e off n s).chip = s.chip := rfl
@[simp] theorem scramble_resets : (scramble e off n s).resets = s.resets := rfl
@[simp] theorem scramble_draws : (scramble e off n s).draws = s.draws + n := rfl
@[simp] theorem scramble_moves : (scramble e off n s).moves = s.moves := rfl

end

/-! ### `loadPayload` -/

section
variable (e : Env) (p : List Byte) (s : State)

@[simp] theorem loadPayload_cmd : (loadPayload e p s).cmd = s.cmd := rfl
@[simp] theorem loadPayload_status : (loadPayload e p s).status = s.status := rfl
@[simp] theorem loadPayload_eA : (loadPayload e p s).eA = s.eA := rfl
@[simp] theorem loadPayload_eB : (loadPayload e p s).eB = s.eB := rfl
@[simp] theorem loadPayload_aOff : (loadPayload e p s).aOff = s.aOff := rfl
@[simp] theorem loadPayload_aLen : (loadPayload e p s).aLen = s.aLen := rfl
@[simp] theorem loadPayload_bOff : (loadPayload e p s).bOff = s.bOff := rfl
@[simp] theorem loadPayload_bLen : (loadPayload e p s).bLen = s.bLen := rfl
@[simp] theorem loadPayload_outCap : (loadPayload e p s).outCap = s.outCap := rfl
@[simp] theorem loadPayload_rOff : (loadPayload e p s).rOff = s.rOff := rfl
@[simp] theorem loadPayload_rLen : (loadPayload e p s).rLen = s.rLen := rfl
@[simp] theorem loadPayload_rCnt : (loadPayload e p s).rCnt = s.rCnt := rfl
@[simp] theorem loadPayload_rVal : (loadPayload e p s).rVal = s.rVal := rfl
@[simp] theorem loadPayload_pkKind : (loadPayload e p s).pkKind = s.pkKind := rfl
@[simp] theorem loadPayload_pkDev : (loadPayload e p s).pkDev = s.pkDev := rfl
@[simp] theorem loadPayload_pkTs : (loadPayload e p s).pkTs = s.pkTs := rfl
@[simp] theorem loadPayload_pkPlen : (loadPayload e p s).pkPlen = BitVec.ofNat 8 p.length := rfl
@[simp] theorem loadPayload_pld : (loadPayload e p s).pld = padPayload e s.draws p := rfl
@[simp] theorem loadPayload_buf : (loadPayload e p s).buf = s.buf := rfl
@[simp] theorem loadPayload_out : (loadPayload e p s).out = s.out := rfl
@[simp] theorem loadPayload_chip : (loadPayload e p s).chip = s.chip := rfl
@[simp] theorem loadPayload_resets : (loadPayload e p s).resets = s.resets := rfl
@[simp] theorem loadPayload_draws : (loadPayload e p s).draws = s.draws + 255 := rfl
@[simp] theorem loadPayload_moves : (loadPayload e p s).moves = s.moves := rfl

end

/-! ### `setPacket` -/

section
variable (e : Env) (p : Packet) (s : State)

@[simp] theorem setPacket_cmd : (setPacket e p s).cmd = s.cmd := rfl
@[simp] theorem setPacket_status : (setPacket e p s).status = s.status := rfl
@[simp] theorem setPacket_eA : (setPacket e p s).eA = s.eA := rfl
@[simp] theorem setPacket_eB : (setPacket e p s).eB = s.eB := rfl
@[simp] theorem setPacket_aOff : (setPacket e p s).aOff = s.aOff := rfl
@[simp] theorem setPacket_aLen : (setPacket e p s).aLen = s.aLen := rfl
@[simp] theorem setPacket_bOff : (setPacket e p s).bOff = s.bOff := rfl
@[simp] theorem setPacket_bLen : (setPacket e p s).bLen = s.bLen := rfl
@[simp] theorem setPacket_outCap : (setPacket e p s).outCap = s.outCap := rfl
@[simp] theorem setPacket_rOff : (setPacket e p s).rOff = s.rOff := rfl
@[simp] theorem setPacket_rLen : (setPacket e p s).rLen = s.rLen := rfl
@[simp] theorem setPacket_rCnt : (setPacket e p s).rCnt = s.rCnt := rfl
@[simp] theorem setPacket_rVal : (setPacket e p s).rVal = s.rVal := rfl
@[simp] theorem setPacket_pkKind : (setPacket e p s).pkKind = p.kind := rfl
@[simp] theorem setPacket_pkDev : (setPacket e p s).pkDev = p.dev.setWidth 8 := rfl
@[simp] theorem setPacket_pkTs : (setPacket e p s).pkTs = p.ts := rfl
@[simp] theorem setPacket_pkPlen : (setPacket e p s).pkPlen = BitVec.ofNat 8 p.payload.length := rfl
@[simp] theorem setPacket_pld : (setPacket e p s).pld = padPayload e s.draws p.payload := rfl
@[simp] theorem setPacket_buf : (setPacket e p s).buf = s.buf := rfl
@[simp] theorem setPacket_out : (setPacket e p s).out = s.out := rfl
@[simp] theorem setPacket_chip : (setPacket e p s).chip = s.chip := rfl
@[simp] theorem setPacket_resets : (setPacket e p s).resets = s.resets := rfl
@[simp] theorem setPacket_draws : (setPacket e p s).draws = s.draws + 255 := rfl
@[simp] theorem setPacket_moves : (setPacket e p s).moves = s.moves := rfl

end

/-! ### `writePackets` -/

section
variable (e : Env) (ps : List Packet) (s : State)

@[simp] theorem writePackets_cmd : (writePackets e ps s).cmd = s.cmd := rfl
@[simp] theorem writePackets_status : (writePackets e ps s).status = s.status := rfl
@[simp] theorem writePackets_eA : (writePackets e ps s).eA = s.eA := rfl
@[simp] theorem writePackets_eB : (writePackets e ps s).eB = s.eB := rfl
@[simp] theorem writePackets_aOff : (writePackets e ps s).aOff = s.aOff := rfl
@[simp] theorem writePackets_aLen : (writePackets e ps s).aLen = s.aLen := rfl
@[simp] theorem writePackets_bOff : (writePackets e ps s).bOff = s.bOff := rfl
@[simp] theorem writePackets_bLen : (writePackets e ps s).bLen = s.bLen := rfl
@[simp] theorem writePackets_outCap : (writePackets e ps s).outCap = s.outCap := rfl
@[simp] theorem writePackets_rOff : (writePackets e ps s).rOff = s.rOff := rfl
@[simp] theorem writePackets_rLen : (writePackets e ps s).rLen = s.rLen := rfl
@[simp] theorem writePackets_rCnt : (writePackets e ps s).rCnt = s.rCnt := rfl
@[simp] theorem writePackets_rVal : (writePackets e ps s).rVal = s.rVal := rfl
@[simp] theorem writePackets_pkKind : (writePackets e ps s).pkKind = s.pkKind := rfl
@[simp] theorem writePackets_pkDev : (writePackets e ps s).pkDev = s.pkDev := rfl
@[simp] theorem writePackets_pkTs : (writePackets e ps s).pkTs = s.pkTs := rfl
@[simp] theorem writePackets_pkPlen : (writePackets e ps s).pkPlen = s.pkPlen := rfl
@[simp] theorem writePackets_pld : (writePackets e ps s).pld = s.pld := rfl
@[simp] theorem writePackets_buf : (writePackets e ps s).buf = s.buf := rfl
@[simp] theorem writePackets_out : (writePackets e ps s).out = memSetFrom s.out 0 (packetSlots e s.draws ps) := rfl
@[simp] theorem writePackets_chip : (writePackets e ps s).chip = s.chip := rfl
@[simp] theorem writePackets_resets : (writePackets e ps s).resets = s.resets := rfl
@[simp] theorem writePackets_draws : (writePackets e ps s).draws = s.draws + 255 * ps.length := rfl
@[simp] theorem writePackets_moves : (writePackets e ps s).moves = s.moves := rfl

end

/-! ### `scrambleOut` -/

section
variable (e : Env) (n : Nat) (s : State)

@[simp] theorem scrambleOut_cmd : (scrambleOut e n s).cmd = s.cmd := rfl
@[simp] theorem scrambleOut_status : (scrambleOut e n s).status = s.status := rfl
@[simp] theorem scrambleOut_eA : (scrambleOut e n s).eA = s.eA := rfl
@[simp] theorem scrambleOut_eB : (scrambleOut e n s).eB = s.eB := rfl
@[simp] theorem scrambleOut_aOff : (scrambleOut e n s).aOff = s.aOff := rfl
@[simp] theorem scrambleOut_aLen : (scrambleOut e n s).aLen = s.aLen := rfl
@[simp] theorem scrambleOut_bOff : (scrambleOut e n s).bOff = s.bOff := rfl
@[simp] theorem scrambleOut_bLen : (scrambleOut e n s).bLen = s.bLen := rfl
@[simp] theorem scrambleOut_outCap : (scrambleOut e n s).outCap = s.outCap := rfl
@[simp] theorem scrambleOut_rOff : (scrambleOut e n s).rOff = s.rOff := rfl
@[simp] theorem scrambleOut_rLen : (scrambleOut e n s).rLen = s.rLen := rfl
@[simp] theorem scrambleOut_rCnt : (scrambleOut e n s).rCnt = s.rCnt := rfl
@[simp] theorem scrambleOut_rVal : (scrambleOut e n s).rVal = s.rVal := rfl
@[simp] theorem scrambleOut_pkKind : (scrambleOut e n s).pkKind = s.pkKind := rfl
@[simp] theorem scrambleOut_pkDev : (scrambleOut e n s).pkDev = s.pkDev := rfl
@[simp] theorem scrambleOut_pkTs : (scrambleOut e n s).pkTs = s.pkTs := rfl
@[simp] theorem scrambleOut_pkPlen : (scrambleOut e n s).pkPlen = s.pkPlen := rfl
@[simp] theorem scrambleOut_pld : (scrambleOut e n s).pld = s.pld := rfl
@[simp] theorem scrambleOut_buf : (scrambleOut e n s).buf = s.buf := rfl
@[simp] theorem scrambleOut_out : (scrambleOut e n s).out = memSetFrom s.out 0 (anySlots e s.draws n) := rfl
@[simp] theorem scrambleOut_chip : (scrambleOut e n s).chip = s.chip := rfl
@[simp] theorem scrambleOut_resets : (scrambleOut e n s).resets = s.resets := rfl
@[simp] theorem scrambleOut_draws : (scrambleOut e n s).draws = s.draws + slotDraws * n := rfl
@[simp] theorem scrambleOut_moves : (scrambleOut e n s).moves = s.moves := rfl

end

/-! ### `setSlice` -/

section
variable (off len : Nat) (s : State)

@[simp] theorem setSlice_cmd : (setSlice off len s).cmd = s.cmd := rfl
@[simp] theorem setSlice_status : (setSlice off len s).status = s.status := rfl
@[simp] theorem setSlice_eA : (setSlice off len s).eA = s.eA := rfl
@[simp] theorem setSlice_eB : (setSlice off len s).eB = s.eB := rfl
@[simp] theorem setSlice_aOff : (setSlice off len s).aOff = s.aOff := rfl
@[simp] theorem setSlice_aLen : (setSlice off len s).aLen = s.aLen := rfl
@[simp] theorem setSlice_bOff : (setSlice off len s).bOff = s.bOff := rfl
@[simp] theorem setSlice_bLen : (setSlice off len s).bLen = s.bLen := rfl
@[simp] theorem setSlice_outCap : (setSlice off len s).outCap = s.outCap := rfl
@[simp] theorem setSlice_rOff : (setSlice off len s).rOff = BitVec.ofNat 32 off := rfl
@[simp] theorem setSlice_rLen : (setSlice off len s).rLen = BitVec.ofNat 32 len := rfl
@[simp] theorem setSlice_rCnt : (setSlice off len s).rCnt = s.rCnt := rfl
@[simp] theorem setSlice_rVal : (setSlice off len s).rVal = s.rVal := rfl
@[simp] theorem setSlice_pkKind : (setSlice off len s).pkKind = s.pkKind := rfl
@[simp] theorem setSlice_pkDev : (setSlice off len s).pkDev = s.pkDev := rfl
@[simp] theorem setSlice_pkTs : (setSlice off len s).pkTs = s.pkTs := rfl
@[simp] theorem setSlice_pkPlen : (setSlice off len s).pkPlen = s.pkPlen := rfl
@[simp] theorem setSlice_pld : (setSlice off len s).pld = s.pld := rfl
@[simp] theorem setSlice_buf : (setSlice off len s).buf = s.buf := rfl
@[simp] theorem setSlice_out : (setSlice off len s).out = s.out := rfl
@[simp] theorem setSlice_chip : (setSlice off len s).chip = s.chip := rfl
@[simp] theorem setSlice_resets : (setSlice off len s).resets = s.resets := rfl
@[simp] theorem setSlice_draws : (setSlice off len s).draws = s.draws := rfl
@[simp] theorem setSlice_moves : (setSlice off len s).moves = s.moves := rfl

end

/-! ### `setVal` -/

section
variable (v : Nat) (s : State)

@[simp] theorem setVal_cmd : (setVal v s).cmd = s.cmd := rfl
@[simp] theorem setVal_status : (setVal v s).status = s.status := rfl
@[simp] theorem setVal_eA : (setVal v s).eA = s.eA := rfl
@[simp] theorem setVal_eB : (setVal v s).eB = s.eB := rfl
@[simp] theorem setVal_aOff : (setVal v s).aOff = s.aOff := rfl
@[simp] theorem setVal_aLen : (setVal v s).aLen = s.aLen := rfl
@[simp] theorem setVal_bOff : (setVal v s).bOff = s.bOff := rfl
@[simp] theorem setVal_bLen : (setVal v s).bLen = s.bLen := rfl
@[simp] theorem setVal_outCap : (setVal v s).outCap = s.outCap := rfl
@[simp] theorem setVal_rOff : (setVal v s).rOff = s.rOff := rfl
@[simp] theorem setVal_rLen : (setVal v s).rLen = s.rLen := rfl
@[simp] theorem setVal_rCnt : (setVal v s).rCnt = s.rCnt := rfl
@[simp] theorem setVal_rVal : (setVal v s).rVal = BitVec.ofNat 32 v := rfl
@[simp] theorem setVal_pkKind : (setVal v s).pkKind = s.pkKind := rfl
@[simp] theorem setVal_pkDev : (setVal v s).pkDev = s.pkDev := rfl
@[simp] theorem setVal_pkTs : (setVal v s).pkTs = s.pkTs := rfl
@[simp] theorem setVal_pkPlen : (setVal v s).pkPlen = s.pkPlen := rfl
@[simp] theorem setVal_pld : (setVal v s).pld = s.pld := rfl
@[simp] theorem setVal_buf : (setVal v s).buf = s.buf := rfl
@[simp] theorem setVal_out : (setVal v s).out = s.out := rfl
@[simp] theorem setVal_chip : (setVal v s).chip = s.chip := rfl
@[simp] theorem setVal_resets : (setVal v s).resets = s.resets := rfl
@[simp] theorem setVal_draws : (setVal v s).draws = s.draws := rfl
@[simp] theorem setVal_moves : (setVal v s).moves = s.moves := rfl

end

/-! ### `setCnt` -/

section
variable (n : Nat) (s : State)

@[simp] theorem setCnt_cmd : (setCnt n s).cmd = s.cmd := rfl
@[simp] theorem setCnt_status : (setCnt n s).status = s.status := rfl
@[simp] theorem setCnt_eA : (setCnt n s).eA = s.eA := rfl
@[simp] theorem setCnt_eB : (setCnt n s).eB = s.eB := rfl
@[simp] theorem setCnt_aOff : (setCnt n s).aOff = s.aOff := rfl
@[simp] theorem setCnt_aLen : (setCnt n s).aLen = s.aLen := rfl
@[simp] theorem setCnt_bOff : (setCnt n s).bOff = s.bOff := rfl
@[simp] theorem setCnt_bLen : (setCnt n s).bLen = s.bLen := rfl
@[simp] theorem setCnt_outCap : (setCnt n s).outCap = s.outCap := rfl
@[simp] theorem setCnt_rOff : (setCnt n s).rOff = s.rOff := rfl
@[simp] theorem setCnt_rLen : (setCnt n s).rLen = s.rLen := rfl
@[simp] theorem setCnt_rCnt : (setCnt n s).rCnt = BitVec.ofNat 32 n := rfl
@[simp] theorem setCnt_rVal : (setCnt n s).rVal = s.rVal := rfl
@[simp] theorem setCnt_pkKind : (setCnt n s).pkKind = s.pkKind := rfl
@[simp] theorem setCnt_pkDev : (setCnt n s).pkDev = s.pkDev := rfl
@[simp] theorem setCnt_pkTs : (setCnt n s).pkTs = s.pkTs := rfl
@[simp] theorem setCnt_pkPlen : (setCnt n s).pkPlen = s.pkPlen := rfl
@[simp] theorem setCnt_pld : (setCnt n s).pld = s.pld := rfl
@[simp] theorem setCnt_buf : (setCnt n s).buf = s.buf := rfl
@[simp] theorem setCnt_out : (setCnt n s).out = s.out := rfl
@[simp] theorem setCnt_chip : (setCnt n s).chip = s.chip := rfl
@[simp] theorem setCnt_resets : (setCnt n s).resets = s.resets := rfl
@[simp] theorem setCnt_draws : (setCnt n s).draws = s.draws := rfl
@[simp] theorem setCnt_moves : (setCnt n s).moves = s.moves := rfl

end

/-! ### `clearResults` -/

section
variable (s : State)

@[simp] theorem clearResults_cmd : (clearResults s).cmd = s.cmd := rfl
@[simp] theorem clearResults_status : (clearResults s).status = 0#8 := rfl
@[simp] theorem clearResults_eA : (clearResults s).eA = 0#32 := rfl
@[simp] theorem clearResults_eB : (clearResults s).eB = 0#32 := rfl
@[simp] theorem clearResults_aOff : (clearResults s).aOff = s.aOff := rfl
@[simp] theorem clearResults_aLen : (clearResults s).aLen = s.aLen := rfl
@[simp] theorem clearResults_bOff : (clearResults s).bOff = s.bOff := rfl
@[simp] theorem clearResults_bLen : (clearResults s).bLen = s.bLen := rfl
@[simp] theorem clearResults_outCap : (clearResults s).outCap = s.outCap := rfl
@[simp] theorem clearResults_rOff : (clearResults s).rOff = 0#32 := rfl
@[simp] theorem clearResults_rLen : (clearResults s).rLen = 0#32 := rfl
@[simp] theorem clearResults_rCnt : (clearResults s).rCnt = 0#32 := rfl
@[simp] theorem clearResults_rVal : (clearResults s).rVal = 0#32 := rfl
@[simp] theorem clearResults_pkKind : (clearResults s).pkKind = s.pkKind := rfl
@[simp] theorem clearResults_pkDev : (clearResults s).pkDev = s.pkDev := rfl
@[simp] theorem clearResults_pkTs : (clearResults s).pkTs = s.pkTs := rfl
@[simp] theorem clearResults_pkPlen : (clearResults s).pkPlen = s.pkPlen := rfl
@[simp] theorem clearResults_pld : (clearResults s).pld = s.pld := rfl
@[simp] theorem clearResults_buf : (clearResults s).buf = s.buf := rfl
@[simp] theorem clearResults_out : (clearResults s).out = s.out := rfl
@[simp] theorem clearResults_chip : (clearResults s).chip = s.chip := rfl
@[simp] theorem clearResults_resets : (clearResults s).resets = s.resets := rfl
@[simp] theorem clearResults_draws : (clearResults s).draws = s.draws := rfl
@[simp] theorem clearResults_moves : (clearResults s).moves = s.moves := rfl

end

/-! ### `raise` -/

section
variable (err : CmdError) (s : State)

@[simp] theorem raise_cmd : (raise err s).cmd = s.cmd := rfl
@[simp] theorem raise_status : (raise err s).status = errorCode err := rfl
@[simp] theorem raise_eA : (raise err s).eA = errorInfoA err := rfl
@[simp] theorem raise_eB : (raise err s).eB = errorInfoB err := rfl
@[simp] theorem raise_aOff : (raise err s).aOff = s.aOff := rfl
@[simp] theorem raise_aLen : (raise err s).aLen = s.aLen := rfl
@[simp] theorem raise_bOff : (raise err s).bOff = s.bOff := rfl
@[simp] theorem raise_bLen : (raise err s).bLen = s.bLen := rfl
@[simp] theorem raise_outCap : (raise err s).outCap = s.outCap := rfl
@[simp] theorem raise_rOff : (raise err s).rOff = s.rOff := rfl
@[simp] theorem raise_rLen : (raise err s).rLen = s.rLen := rfl
@[simp] theorem raise_rCnt : (raise err s).rCnt = s.rCnt := rfl
@[simp] theorem raise_rVal : (raise err s).rVal = s.rVal := rfl
@[simp] theorem raise_pkKind : (raise err s).pkKind = s.pkKind := rfl
@[simp] theorem raise_pkDev : (raise err s).pkDev = s.pkDev := rfl
@[simp] theorem raise_pkTs : (raise err s).pkTs = s.pkTs := rfl
@[simp] theorem raise_pkPlen : (raise err s).pkPlen = s.pkPlen := rfl
@[simp] theorem raise_pld : (raise err s).pld = s.pld := rfl
@[simp] theorem raise_buf : (raise err s).buf = s.buf := rfl
@[simp] theorem raise_out : (raise err s).out = s.out := rfl
@[simp] theorem raise_chip : (raise err s).chip = s.chip := rfl
@[simp] theorem raise_resets : (raise err s).resets = s.resets := rfl
@[simp] theorem raise_draws : (raise err s).draws = s.draws := rfl
@[simp] theorem raise_moves : (raise err s).moves = s.moves := rfl

end

/-! ### `writeReg`: the fields no host write of a register reaches -/

section
variable (r : Reg) (v : Nat) (s : State)

@[simp] theorem writeReg_status : (writeReg r v s).status = s.status := by cases r <;> rfl
@[simp] theorem writeReg_eA : (writeReg r v s).eA = s.eA := by cases r <;> rfl
@[simp] theorem writeReg_eB : (writeReg r v s).eB = s.eB := by cases r <;> rfl
@[simp] theorem writeReg_rOff : (writeReg r v s).rOff = s.rOff := by cases r <;> rfl
@[simp] theorem writeReg_rLen : (writeReg r v s).rLen = s.rLen := by cases r <;> rfl
@[simp] theorem writeReg_rCnt : (writeReg r v s).rCnt = s.rCnt := by cases r <;> rfl
@[simp] theorem writeReg_rVal : (writeReg r v s).rVal = s.rVal := by cases r <;> rfl
@[simp] theorem writeReg_pkPlen : (writeReg r v s).pkPlen = s.pkPlen := by cases r <;> rfl
@[simp] theorem writeReg_pld : (writeReg r v s).pld = s.pld := by cases r <;> rfl
@[simp] theorem writeReg_buf : (writeReg r v s).buf = s.buf := by cases r <;> rfl
@[simp] theorem writeReg_out : (writeReg r v s).out = s.out := by cases r <;> rfl
@[simp] theorem writeReg_chip : (writeReg r v s).chip = s.chip := by cases r <;> rfl
@[simp] theorem writeReg_resets : (writeReg r v s).resets = s.resets := by cases r <;> rfl
@[simp] theorem writeReg_draws : (writeReg r v s).draws = s.draws := by cases r <;> rfl
@[simp] theorem writeReg_moves : (writeReg r v s).moves = s.moves := by cases r <;> rfl

end

/-! ### `resetEvent`: what a reset leaves -/

section
variable (e : Env) (s : State)

@[simp] theorem resetEvent_cmd : (resetEvent e s).cmd = 0#8 := rfl
@[simp] theorem resetEvent_status : (resetEvent e s).status = 0#8 := rfl
@[simp] theorem resetEvent_eA : (resetEvent e s).eA = 0#32 := rfl
@[simp] theorem resetEvent_eB : (resetEvent e s).eB = 0#32 := rfl
@[simp] theorem resetEvent_aOff : (resetEvent e s).aOff = 0#32 := rfl
@[simp] theorem resetEvent_aLen : (resetEvent e s).aLen = 0#32 := rfl
@[simp] theorem resetEvent_bOff : (resetEvent e s).bOff = 0#32 := rfl
@[simp] theorem resetEvent_bLen : (resetEvent e s).bLen = 0#32 := rfl
@[simp] theorem resetEvent_outCap : (resetEvent e s).outCap = 0#32 := rfl
@[simp] theorem resetEvent_rOff : (resetEvent e s).rOff = 0#32 := rfl
@[simp] theorem resetEvent_rLen : (resetEvent e s).rLen = 0#32 := rfl
@[simp] theorem resetEvent_rCnt : (resetEvent e s).rCnt = 0#32 := rfl
@[simp] theorem resetEvent_rVal : (resetEvent e s).rVal = 0#32 := rfl
@[simp] theorem resetEvent_pkKind : (resetEvent e s).pkKind = 0#1 := rfl
@[simp] theorem resetEvent_pkDev : (resetEvent e s).pkDev = 0#8 := rfl
@[simp] theorem resetEvent_pkTs : (resetEvent e s).pkTs = 0#64 := rfl
@[simp] theorem resetEvent_pkPlen : (resetEvent e s).pkPlen = 0#8 := rfl
@[simp] theorem resetEvent_buf : (resetEvent e s).buf = [] := rfl
@[simp] theorem resetEvent_out : (resetEvent e s).out = [] := rfl
@[simp] theorem resetEvent_chip : (resetEvent e s).chip = s.chip := rfl
@[simp] theorem resetEvent_resets : (resetEvent e s).resets = s.resets + 1 := rfl
@[simp] theorem resetEvent_draws : (resetEvent e s).draws = s.draws := rfl
@[simp] theorem resetEvent_moves : (resetEvent e s).moves = s.moves := rfl

end

end Sys2Proof.Machine
end

