-- ==== Sys2Proof/Laws/Memory.lean ====
section
/-! SUPPORT. Memories: a read after a write, a write leaves every other cell alone, and every operation
keeps the canonical form and the bound on addresses. -/

namespace Sys2Proof.Machine

variable {α : Type}

/-! ### Reading after writing -/

theorem memGet_memErase (m : Memory α) (a b : Nat) :
    memGet (memErase m a) b = if b = a then none else memGet m b := by
  induction m with
  | nil => simp [memErase, memGet]
  | cons c m ih =>
    simp only [memErase] at ih ⊢
    by_cases hb : b = a
    · subst hb
      by_cases hc : c.1 = b <;> simp_all [memGet]
    · by_cases hc : c.1 = a
      · have : ¬ a = b := fun h => hb h.symm
        simp [memGet, hc, ih, hb, this]
      · simp [memGet, hc, ih, hb]

theorem memGet_memInsert (m : Memory α) (a b : Nat) (v : α) (h : memGet m a = none) :
    memGet (memInsert a v m) b = if b = a then some v else memGet m b := by
  induction m with
  | nil => simp [memInsert, memGet, eq_comm]
  | cons c m ih =>
    have hc : ¬ c.1 = a := by intro hc; simp [memGet, hc] at h
    have h' : memGet m a = none := by simpa [memGet, hc] using h
    simp only [memInsert]
    split
    · simp only [memGet, eq_comm (a := a)]
    · by_cases hb : b = a
      · subst hb; simp [memGet, ih h', hc]
      · simp [memGet, ih h', hb]

/-- A read gives the value written at the address, and elsewhere what it gave before. -/
theorem memGet_memSet (m : Memory α) (a b : Nat) (v : α) :
    memGet (memSet m a v) b = if b = a then some v else memGet m b := by
  rw [memSet, memGet_memInsert _ _ _ _ (by simp [memGet_memErase])]
  split <;> simp_all [memGet_memErase]

/-- Reading after writing consecutive cells. -/
theorem memGet_memSetFrom (m : Memory α) (a b : Nat) (vs : List α) :
    memGet (memSetFrom m a vs) b =
      if a ≤ b ∧ b < a + vs.length then vs[b - a]? else memGet m b := by
  induction vs generalizing m a with
  | nil => simp [memSetFrom]
  | cons v vs ih =>
    rw [memSetFrom, ih, memGet_memSet]
    by_cases hb : b = a
    · subst hb; simp
    · by_cases hin : a + 1 ≤ b ∧ b < a + 1 + vs.length
      · have h1 : b - a = (b - (a + 1)) + 1 := by omega
        have h2 : a ≤ b ∧ b < a + (v :: vs).length := by simp; omega
        rw [if_pos hin, if_pos h2, h1, List.getElem?_cons_succ]
      · have h2 : ¬ (a ≤ b ∧ b < a + (v :: vs).length) := by simp; omega
        rw [if_neg hin, if_neg hb, if_neg h2]

/-! ### The canonical form -/

theorem memErase_wf {m : Memory α} (a : Nat) (h : Memory.wf m) : Memory.wf (memErase m a) :=
  List.Pairwise.filter _ h

theorem mem_memInsert (m : Memory α) (a : Nat) (v : α) (c : Nat × α) :
    c ∈ memInsert a v m ↔ c = (a, v) ∨ c ∈ m := by
  induction m with
  | nil => simp [memInsert]
  | cons d m ih =>
    simp only [memInsert]
    split
    · simp
    · simp [ih]; tauto

theorem memInsert_wf {m : Memory α} (a : Nat) (v : α) (h : Memory.wf m) (ha : ∀ c ∈ m, c.1 ≠ a) :
    Memory.wf (memInsert a v m) := by
  induction m with
  | nil => simp [memInsert, Memory.wf]
  | cons d m ih =>
    obtain ⟨hd, hm⟩ := List.pairwise_cons.mp h
    simp only [memInsert]
    split
    · next hlt =>
      refine List.pairwise_cons.mpr ⟨?_, h⟩
      rintro c (_ | ⟨_, hc⟩)
      · exact hlt
      · exact lt_trans hlt (hd c hc)
    · next hge =>
      refine List.pairwise_cons.mpr ⟨?_, ih hm fun c hc => ha c (.tail _ hc)⟩
      intro c hc
      rcases (mem_memInsert m a v c).mp hc with rfl | hc
      · exact lt_of_le_of_ne (not_lt.mp hge) (ha d (.head _))
      · exact hd c hc

/-- Writing a cell keeps the canonical form. -/
theorem memSet_wf {m : Memory α} (a : Nat) (v : α) (h : Memory.wf m) : Memory.wf (memSet m a v) :=
  memInsert_wf a v (memErase_wf a h) fun c hc => by
    simpa using (List.mem_filter.mp hc).2

/-- Writing consecutive cells keeps the canonical form. -/
theorem memSetFrom_wf {m : Memory α} (a : Nat) (vs : List α) (h : Memory.wf m) :
    Memory.wf (memSetFrom m a vs) := by
  induction vs generalizing m a with
  | nil => exact h
  | cons v vs ih => exact ih (a + 1) (memSet_wf a v h)

/-- Writing a cell below a bound keeps every address below it. -/
theorem memSet_below {m : Memory α} {n : Nat} (a : Nat) (v : α) (ha : a < n) (h : memBelow n m) :
    memBelow n (memSet m a v) := by
  intro c hc
  rcases (mem_memInsert _ a v c).mp hc with rfl | hc
  · exact ha
  · exact h c (List.mem_filter.mp hc).1

/-- Writing consecutive cells below a bound keeps every address below it. -/
theorem memSetFrom_below {m : Memory α} {n : Nat} (a : Nat) (vs : List α) (ha : a + vs.length ≤ n)
    (h : memBelow n m) : memBelow n (memSetFrom m a vs) := by
  induction vs generalizing m a with
  | nil => exact h
  | cons v vs ih =>
    simp only [List.length_cons] at ha
    exact ih (a + 1) (by omega) (memSet_below a v (by omega) h)

/-- The memories of the reset state have the canonical form. -/
theorem reset_memWf : Memory.wf State.reset.buf ∧ Memory.wf State.reset.out := by decide

end Sys2Proof.Machine
end

