-- ==== Sys2Proof/Laws/Bytes.lean ====
section
/-! SUPPORT. What the shared operations do, in terms of reading one byte of `BUF`, one slot of `OUT` or
the payload: the lemmas to cite instead of unfolding an operation. -/

namespace Sys2Proof.Machine

variable (e : Env) (s t : State)

/-! ### Reading depends on the memory and the reset only -/

/-- A byte of `BUF` reads the same in two states with the same `BUF` and reset number. -/
theorem readBuf_congr {s t : State} (h : t.buf = s.buf) (hk : t.resets = s.resets) (a : Nat) :
    readBuf e t a = readBuf e s a := by simp [readBuf, h, hk]

/-- A slot of `OUT` reads the same in two states with the same `OUT` and reset number. -/
theorem readOut_congr {s t : State} (h : t.out = s.out) (hk : t.resets = s.resets) (i : Nat) :
    readOut e t i = readOut e s i := by simp [readOut, h, hk]

@[simp] theorem readBytes_length (off n : Nat) : (readBytes e s off n).length = n := by
  induction n generalizing off with
  | zero => rfl
  | succ n ih => simp [readBytes, ih]

theorem readBytes_getElem? (off n i : Nat) :
    (readBytes e s off n)[i]? = if i < n then some (readBuf e s (off + i)) else none := by
  induction n generalizing off i with
  | zero => simp [readBytes]
  | succ n ih =>
    cases i with
    | zero => simp [readBytes]
    | succ i =>
      have h : off + 1 + i = off + (i + 1) := by omega
      simp [readBytes, ih, h]

/-- Two states whose bytes agree on a range give the same bytes of it. -/
theorem readBytes_congr {s t : State} {off n : Nat}
    (h : ∀ a, off ≤ a → a < off + n → readBuf e t a = readBuf e s a) :
    readBytes e t off n = readBytes e s off n := by
  induction n generalizing off with
  | zero => rfl
  | succ n ih =>
    simp only [readBytes]
    rw [h off (by omega) (by omega), ih fun a h1 h2 => h a (by omega) (by omega)]

theorem readBytes_append (off m n : Nat) :
    readBytes e s off (m + n) = readBytes e s off m ++ readBytes e s (off + m) n := by
  induction m generalizing off with
  | zero => simp [readBytes]
  | succ m ih =>
    have h : m + 1 + n = (m + n) + 1 := by omega
    have h' : off + 1 + m = off + (m + 1) := by omega
    simp [h, readBytes, ih, h']

@[simp] theorem sliceA_length : (sliceA e s).length = s.aLen.toNat := readBytes_length ..

/-! ### Writing bytes -/

/-- What `writeBytes` leaves at an address. -/
theorem readBuf_writeBytes (off : Nat) (bs : List Byte) (a : Nat) :
    readBuf e (writeBytes off bs s) a =
      if off ≤ a ∧ a < off + bs.length then bs.getD (a - off) 0 else readBuf e s a := by
  simp only [readBuf, writeBytes_buf, writeBytes_resets, memGet_memSetFrom]
  split
  · next h =>
    have : a - off < bs.length := by omega
    simp [List.getElem?_eq_getElem this, List.getD_eq_getElem?_getD]
  · rfl

/-- `writeBytes` leaves every byte outside its range alone. -/
theorem readBuf_writeBytes_outside {off : Nat} {bs : List Byte} {a : Nat}
    (h : a < off ∨ off + bs.length ≤ a) : readBuf e (writeBytes off bs s) a = readBuf e s a := by
  rw [readBuf_writeBytes, if_neg (by omega)]

/-- The bytes just written read back. -/
theorem readBytes_writeBytes (off : Nat) (bs : List Byte) :
    readBytes e (writeBytes off bs s) off bs.length = bs := by
  apply List.ext_getElem? fun i => ?_
  rw [readBytes_getElem?]
  split
  · next h =>
    rw [readBuf_writeBytes, if_pos (by omega)]
    simp [h]
  · next h => simp [not_lt.mp h]

@[simp] theorem anyBytes_length' (d n : Nat) : (anyBytes e d n).length = n := anyBytes_length e d n

/-- `scramble` leaves every byte outside its range alone; the bytes inside are free values. -/
theorem readBuf_scramble_outside {off n a : Nat} (h : a < off ∨ off + n ≤ a) :
    readBuf e (scramble e off n s) a = readBuf e s a := by
  simp only [readBuf, scramble_buf, scramble_resets, memGet_memSetFrom, anyBytes_length']
  rw [if_neg (by omega)]

/-! ### The payload container -/

/-- A padded payload begins with the payload. -/
theorem padPayload_take (d : Nat) {p : List Byte} (h : p.length ≤ 255) :
    (padPayload e d p).toList.take p.length = p := by
  have key : ∀ (n d : Nat) (p : List Byte), p.length ≤ n →
      (paddedBytes e d p n).take p.length = p := by
    intro n
    induction n with
    | zero => intro d p hp; simp at hp; simp [hp]
    | succ n ih =>
      intro d p hp
      cases p with
      | nil => simp
      | cons b p => simp [paddedBytes, ih (d + 1) p (by simpa using hp)]
  exact key 255 d p h

/-- The payload just loaded is the payload of the packet register. -/
theorem pkPayload_loadPayload {p : List Byte} (h : p.length ≤ 255) :
    pkPayload (loadPayload e p s) = p := by
  have hl : (BitVec.ofNat 8 p.length).toNat = p.length := by simp; omega
  simp only [pkPayload, loadPayload_pld, loadPayload_pkPlen, hl]
  exact padPayload_take e _ h

/-! ### The output array -/

theorem packetSlots_getElem? (d : Nat) (ps : List Packet) (i : Nat) :
    (packetSlots e d ps)[i]? = ps[i]?.map (packetSlot e (d + 255 * i)) := by
  induction ps generalizing d i with
  | nil => simp [packetSlots]
  | cons p ps ih =>
    cases i with
    | zero => simp [packetSlots]
    | succ i =>
      have h : d + 255 + 255 * i = d + 255 * (i + 1) := by omega
      simp [packetSlots, ih, h]

@[simp] theorem packetSlots_length (d : Nat) (ps : List Packet) :
    (packetSlots e d ps).length = ps.length := by
  induction ps generalizing d with
  | nil => rfl
  | cons p ps ih => simp [packetSlots, ih]

@[simp] theorem anySlots_length (d n : Nat) : (anySlots e d n).length = n := by
  induction n generalizing d with
  | zero => rfl
  | succ n ih => simp [anySlots, ih]

/-- The slot of a packet holds the packet. -/
theorem slotPacket_packetSlot (d : Nat) {p : Packet} (h : p.payload.length ≤ 255) :
    slotPacket (packetSlot e d p) = p := by
  have hl : (BitVec.ofNat 8 p.payload.length).toNat = p.payload.length := by simp; omega
  simp only [slotPacket, packetSlot, hl, padPayload_take e _ h]

/-- `writePackets` puts the `i`-th packet into slot `i`. -/
theorem readOut_writePackets (ps : List Packet) (i : Nat) :
    readOut e (writePackets e ps s) i =
      if h : i < ps.length then packetSlot e (s.draws + 255 * i) ps[i] else readOut e s i := by
  simp only [readOut, writePackets_out, writePackets_resets, memGet_memSetFrom, packetSlots_length]
  by_cases h : i < ps.length
  · have hi : 0 ≤ i ∧ i < 0 + ps.length := by omega
    rw [if_pos hi, dif_pos h, Nat.sub_zero, packetSlots_getElem?, List.getElem?_eq_getElem h]
    rfl
  · simp [h]

/-- `scrambleOut` leaves every slot past its range alone. -/
theorem readOut_scrambleOut_outside {n i : Nat} (h : n ≤ i) :
    readOut e (scrambleOut e n s) i = readOut e s i := by
  simp only [readOut, scrambleOut_out, scrambleOut_resets, memGet_memSetFrom, anySlots_length]
  rw [if_neg (by omega)]

/-! ### Operands -/

/-- What an admissible slice is (R51). -/
theorem admissible_iff (c : Chip) (off len : Word32) :
    admissible c off len = true ↔ off.toNat + len.toNat ≤ c.bufCap := by
  simp [admissible]

/-- `BUF_CAP` is at least 1 and at most `2^31` (R11). -/
theorem bufCap_bounds (c : Chip) : 1 ≤ c.bufCap ∧ c.bufCap ≤ 2 ^ 31 := by
  have := c.bufTop.isLt
  simp only [Chip.bufCap]; omega

/-- `OUT_SLOTS` is at least 1 and at most `2^31` (R11). -/
theorem outSlots_bounds (c : Chip) : 1 ≤ c.outSlots ∧ c.outSlots ≤ 2 ^ 31 := by
  have := c.outTop.isLt
  simp only [Chip.outSlots]; omega

/-- The device codes that are assigned (R102). -/
theorem devAssigned_iff (c : Chip) (d : Byte) :
    devAssigned c d = true ↔ d.toNat ≤ 15 ∨ (d.toNat = 31 ∧ c.devid31 = true) := by
  simp only [devAssigned]
  split
  · simp_all
  · split
    · simp; omega
    · split
      · simp_all
      · simp; omega

end Sys2Proof.Machine
end

