-- ==== Sys2Proof/Laws/Commands.lean ====
section
/-! SUPPORT. What each command can do, said once: `exec` as the command's own function, the memories seen
through every operation, and for each command its outcomes with the condition of each. -/

namespace Sys2Proof.Machine

/-! ### `exec` -/

section
variable (s : State)

theorem exec_pload : exec .pload s = .next (pload Config.env s) := rfl
theorem exec_devchk : exec .devchk s = .next (devchk s) := rfl
theorem exec_crc16 : exec .crc16 s = .next (crc16Cmd Config.env s) := rfl
theorem exec_stuff : exec .stuff s = .next (stuffCmd Config.env s) := rfl
theorem exec_unstuff : exec .unstuff s = .next (unstuffCmd Config.env s) := rfl
theorem exec_encsize : exec .encsize s = .next (encsizeCmd s) := rfl
theorem exec_encode : exec .encode s = .next (encodeCmd Config.env s) := rfl
theorem exec_decode1 : exec .decode1 s = .next (decode1Cmd Config.env s) := rfl
theorem exec_decodes : exec .decodes s = .next (decodesCmd Config.env s) := rfl

end

/-! ### `BUF` and `OUT` through the operations that do not write them -/

section
variable (e f : Env) (s : State) (a : Nat)

@[simp] theorem readBuf_clearResults : readBuf e (clearResults s) a = readBuf e s a := rfl
@[simp] theorem readBuf_raise (err : CmdError) : readBuf e (raise err s) a = readBuf e s a := rfl
@[simp] theorem readBuf_setSlice (o l : Nat) : readBuf e (setSlice o l s) a = readBuf e s a := rfl
@[simp] theorem readBuf_setCnt (n : Nat) : readBuf e (setCnt n s) a = readBuf e s a := rfl
@[simp] theorem readBuf_setVal (v : Nat) : readBuf e (setVal v s) a = readBuf e s a := rfl
@[simp] theorem readBuf_loadPayload (p : List Byte) :
    readBuf e (loadPayload f p s) a = readBuf e s a := rfl
@[simp] theorem readBuf_setPacket (p : Packet) : readBuf e (setPacket f p s) a = readBuf e s a := rfl
@[simp] theorem readBuf_writePackets (ps : List Packet) :
    readBuf e (writePackets f ps s) a = readBuf e s a := rfl
@[simp] theorem readBuf_scrambleOut (n : Nat) :
    readBuf e (scrambleOut f n s) a = readBuf e s a := rfl
@[simp] theorem readBuf_writeReg (r : Reg) (v : Nat) :
    readBuf e (writeReg r v s) a = readBuf e s a := readBuf_congr e (by simp) (by simp) a

@[simp] theorem readOut_clearResults : readOut e (clearResults s) a = readOut e s a := rfl
@[simp] theorem readOut_raise (err : CmdError) : readOut e (raise err s) a = readOut e s a := rfl
@[simp] theorem readOut_setSlice (o l : Nat) : readOut e (setSlice o l s) a = readOut e s a := rfl
@[simp] theorem readOut_setCnt (n : Nat) : readOut e (setCnt n s) a = readOut e s a := rfl
@[simp] theorem readOut_setVal (v : Nat) : readOut e (setVal v s) a = readOut e s a := rfl
@[simp] theorem readOut_loadPayload (p : List Byte) :
    readOut e (loadPayload f p s) a = readOut e s a := rfl
@[simp] theorem readOut_setPacket (p : Packet) : readOut e (setPacket f p s) a = readOut e s a := rfl
@[simp] theorem readOut_writeBytes (o : Nat) (bs : List Byte) :
    readOut e (writeBytes o bs s) a = readOut e s a := rfl
@[simp] theorem readOut_scramble (o n : Nat) :
    readOut e (scramble f o n s) a = readOut e s a := rfl
@[simp] theorem readOut_writeReg (r : Reg) (v : Nat) :
    readOut e (writeReg r v s) a = readOut e s a := readOut_congr e (by simp) (by simp) a

@[simp] theorem readBytes_clearResults (n : Nat) :
    readBytes e (clearResults s) a n = readBytes e s a n := readBytes_congr e fun _ _ _ => rfl
@[simp] theorem readBytes_raise (err : CmdError) (n : Nat) :
    readBytes e (raise err s) a n = readBytes e s a n := readBytes_congr e fun _ _ _ => rfl
@[simp] theorem readBytes_setSlice (o l n : Nat) :
    readBytes e (setSlice o l s) a n = readBytes e s a n := readBytes_congr e fun _ _ _ => rfl
@[simp] theorem readBytes_setCnt (k n : Nat) :
    readBytes e (setCnt k s) a n = readBytes e s a n := readBytes_congr e fun _ _ _ => rfl
@[simp] theorem sliceA_clearResults : sliceA e (clearResults s) = sliceA e s :=
  readBytes_clearResults ..

@[simp] theorem pkPayload_clearResults : pkPayload (clearResults s) = pkPayload s := rfl
@[simp] theorem pkPacket_clearResults : pkPacket (clearResults s) = pkPacket s := rfl

theorem pkPayload_length : (pkPayload s).length = s.pkPlen.toNat := by
  have := s.pkPlen.isLt
  simp [pkPayload]
  omega

/-- Bytes beside a range that becomes `ANY`. -/
theorem readBytes_scramble_outside {off n o m : Nat} (h : o + m ≤ off ∨ off + n ≤ o) :
    readBytes e (scramble e off n s) o m = readBytes e s o m :=
  readBytes_congr e fun _ _ _ => readBuf_scramble_outside e s (by omega)

/-- Bytes beside a range that is written. -/
theorem readBytes_writeBytes_outside {off o m : Nat} {bs : List Byte}
    (h : o + m ≤ off ∨ off + bs.length ≤ o) :
    readBytes e (writeBytes off bs s) o m = readBytes e s o m :=
  readBytes_congr e fun _ _ _ => readBuf_writeBytes_outside e s (by omega)

end

/-! ### The host's write to `BUF` -/

/-- A write that ends inside `BUF` writes all its bytes. -/
theorem pokeBytes_inside {s : State} {addr : Nat} {bytes : List Byte}
    (h : addr + bytes.length ≤ s.chip.bufCap) : pokeBytes addr bytes s = writeBytes addr bytes s := by
  rw [pokeBytes, List.take_of_length_le (by omega)]

/-- A host write keeps the canonical form of `BUF` and lists only cells that exist. -/
theorem pokeBytes_wf (addr : Nat) (bytes : List Byte) {s : State} (h : Memory.wf s.buf)
    (hb : memBelow s.chip.bufCap s.buf) :
    Memory.wf (pokeBytes addr bytes s).buf ∧ memBelow s.chip.bufCap (pokeBytes addr bytes s).buf := by
  refine ⟨memSetFrom_wf _ _ h, ?_⟩
  by_cases ha : addr ≤ s.chip.bufCap
  · exact memSetFrom_below _ _ (by simp; omega) hb
  · have hn : bytes.take (s.chip.bufCap - addr) = [] := by simp; omega
    rw [pokeBytes, hn]
    exact hb

theorem overlap_iff (s : State) : overlap s.aOff s.aLen s.bOff s.bLen = true ↔ slicesOverlap s := by
  simp [overlap, slicesOverlap, and_assoc]

theorem encSize_eq (n : Nat) : encSize n = 2 * (13 + n) + (13 + n + 253) / 254 + 1 := by
  simp only [encSize, overhead, stuffMax]
  split <;> omega

/-! ### The outcomes of each command -/

section
variable (e : Env) (s : State)

/-- What every operation of a command that ends early leaves: the error, on cleared results. -/
abbrev rejected (err : CmdError) (s : State) : State := raise err (clearResults s)

theorem pload_cases :
    (s.chip.bufCap < s.aOff.toNat + s.aLen.toNat ∧ pload e s = rejected (.operandError 2) s) ∨
    (s.aOff.toNat + s.aLen.toNat ≤ s.chip.bufCap ∧
      ((255 < s.aLen.toNat ∧ pload e s = rejected (.payloadTooLong s.aLen.toNat) s) ∨
       (s.aLen.toNat ≤ 255 ∧ pload e s = loadPayload e (sliceA e s) (clearResults s)))) := by
  by_cases ha : s.aOff.toNat + s.aLen.toNat ≤ s.chip.bufCap
  · refine .inr ⟨ha, ?_⟩
    by_cases hl : 255 < s.aLen.toNat
    · exact .inl ⟨hl, by simp [pload, admissible, ha, hl]⟩
    · exact .inr ⟨by omega, by simp [pload, admissible, ha, hl]⟩
  · exact .inl ⟨by omega, by simp [pload, admissible, ha]⟩

theorem devchk_cases :
    (devAssigned s.chip s.pkDev = false ∧ devchk s = rejected (.invalidId s.pkDev) s) ∨
    (devAssigned s.chip s.pkDev = true ∧ devchk s = clearResults s) := by
  cases h : devAssigned s.chip s.pkDev <;> simp [devchk, h]

theorem crc16Cmd_cases :
    (s.chip.bufCap < s.aOff.toNat + s.aLen.toNat ∧ crc16Cmd e s = rejected (.operandError 2) s) ∨
    (s.aOff.toNat + s.aLen.toNat ≤ s.chip.bufCap ∧
      crc16Cmd e s = setVal (e.crc16 (sliceA e s)).toNat (clearResults s)) := by
  by_cases ha : s.aOff.toNat + s.aLen.toNat ≤ s.chip.bufCap
  · exact .inr ⟨ha, by simp [crc16Cmd, admissible, ha]⟩
  · exact .inl ⟨by omega, by simp [crc16Cmd, admissible, ha]⟩

/-- What a successful `STUFF` leaves (R115). -/
def stuffDone : State :=
  let t := stuff (sliceA e s)
  setSlice s.bOff.toNat t.length <|
    scramble e (s.bOff.toNat + t.length) (s.bLen.toNat - t.length) <|
      writeBytes s.bOff.toNat t (clearResults s)

theorem stuffCmd_cases :
    (s.chip.bufCap < s.aOff.toNat + s.aLen.toNat ∧ stuffCmd e s = rejected (.operandError 2) s) ∨
    (s.aOff.toNat + s.aLen.toNat ≤ s.chip.bufCap ∧
      ((s.chip.bufCap < s.bOff.toNat + s.bLen.toNat ∧ stuffCmd e s = rejected (.operandError 3) s) ∨
       (s.bOff.toNat + s.bLen.toNat ≤ s.chip.bufCap ∧
        ((slicesOverlap s ∧ stuffCmd e s = rejected (.operandError 4) s) ∨
         (¬ slicesOverlap s ∧
          ((s.bLen.toNat < stuffMax s.aLen.toNat ∧
            stuffCmd e s = rejected (.bufferTooSmall (stuffMax s.aLen.toNat) s.bLen.toNat) s) ∨
           (stuffMax s.aLen.toNat ≤ s.bLen.toNat ∧ stuffCmd e s = stuffDone e s))))))) := by
  by_cases ha : s.aOff.toNat + s.aLen.toNat ≤ s.chip.bufCap
  · refine .inr ⟨ha, ?_⟩
    by_cases hb : s.bOff.toNat + s.bLen.toNat ≤ s.chip.bufCap
    · refine .inr ⟨hb, ?_⟩
      by_cases ho : slicesOverlap s
      · exact .inl ⟨ho, by simp [stuffCmd, admissible, ha, hb, (overlap_iff s).mpr ho]⟩
      · refine .inr ⟨ho, ?_⟩
        have ho' : overlap s.aOff s.aLen s.bOff s.bLen = false := by
          rw [← Bool.not_eq_true, overlap_iff]
          exact ho
        by_cases hl : s.bLen.toNat < stuffMax s.aLen.toNat
        · exact .inl ⟨hl, by simp [stuffCmd, admissible, ha, hb, ho', hl]⟩
        · exact .inr ⟨by omega, by simp [stuffCmd, admissible, ha, hb, ho', hl, stuffDone]⟩
    · exact .inl ⟨by omega, by simp [stuffCmd, admissible, ha, hb]⟩
  · exact .inl ⟨by omega, by simp [stuffCmd, admissible, ha]⟩

/-- What a successful `UNSTUFF` leaves (R118). -/
def unstuffDone (r : List Byte) : State :=
  setSlice s.aOff.toNat r.length <|
    scramble e (s.aOff.toNat + r.length) (s.aLen.toNat - r.length) <|
      writeBytes s.aOff.toNat r (clearResults s)

theorem unstuffCmd_cases :
    (s.chip.bufCap < s.aOff.toNat + s.aLen.toNat ∧ unstuffCmd e s = rejected (.operandError 2) s) ∨
    (s.aOff.toNat + s.aLen.toNat ≤ s.chip.bufCap ∧
      ((unstuff (stripTerm (sliceA e s)) = none ∧ unstuffCmd e s =
          raise .framingError (scramble e s.aOff.toNat s.aLen.toNat (clearResults s))) ∨
       ∃ r, unstuff (stripTerm (sliceA e s)) = some r ∧ unstuffCmd e s = unstuffDone e s r)) := by
  by_cases ha : s.aOff.toNat + s.aLen.toNat ≤ s.chip.bufCap
  · refine .inr ⟨ha, ?_⟩
    cases hu : unstuff (stripTerm (sliceA e s)) with
    | none => exact .inl ⟨rfl, by simp [unstuffCmd, admissible, ha, hu]⟩
    | some r => exact .inr ⟨r, rfl, by simp [unstuffCmd, admissible, ha, hu, unstuffDone]⟩
  · exact .inl ⟨by omega, by simp [unstuffCmd, admissible, ha]⟩

theorem encsizeCmd_eq : encsizeCmd s = setVal (encSize s.pkPlen.toNat) (clearResults s) := rfl

/-- What a successful `ENCODE` leaves (R133). -/
def encodeDone : State :=
  let f := frameRaw e s.chip (pkPacket s)
  let t := wireFrame e s.chip (pkPacket s)
  setSlice (s.aOff.toNat + f.length) t.length <|
    scramble e (s.aOff.toNat + f.length + t.length) (s.aLen.toNat - (f.length + t.length)) <|
      writeBytes (s.aOff.toNat + f.length) t (writeBytes s.aOff.toNat f (clearResults s))

theorem encodeCmd_cases :
    (s.chip.bufCap < s.aOff.toNat + s.aLen.toNat ∧ encodeCmd e s = rejected (.operandError 2) s) ∨
    (s.aOff.toNat + s.aLen.toNat ≤ s.chip.bufCap ∧
      ((devAssigned s.chip s.pkDev = false ∧ encodeCmd e s = rejected (.operandError 6) s) ∨
       (devAssigned s.chip s.pkDev = true ∧
        ((s.aLen.toNat < encSize s.pkPlen.toNat ∧ encodeCmd e s =
            rejected (.bufferTooSmall (encSize s.pkPlen.toNat) s.aLen.toNat) s) ∨
         (encSize s.pkPlen.toNat ≤ s.aLen.toNat ∧ encodeCmd e s = encodeDone e s))))) := by
  by_cases ha : s.aOff.toNat + s.aLen.toNat ≤ s.chip.bufCap
  · refine .inr ⟨ha, ?_⟩
    cases hd : devAssigned s.chip s.pkDev with
    | false => exact .inl ⟨rfl, by simp [encodeCmd, admissible, ha, hd]⟩
    | true =>
      refine .inr ⟨rfl, ?_⟩
      by_cases hl : s.aLen.toNat < encSize s.pkPlen.toNat
      · exact .inl ⟨hl, by simp [encodeCmd, admissible, ha, hd, hl]⟩
      · exact .inr ⟨by omega, by simp [encodeCmd, admissible, ha, hd, hl, encodeDone]⟩
  · exact .inl ⟨by omega, by simp [encodeCmd, admissible, ha]⟩

theorem decode1Cmd_cases :
    (s.chip.bufCap < s.aOff.toNat + s.aLen.toNat ∧ decode1Cmd e s = rejected (.operandError 2) s) ∨
    (s.aOff.toNat + s.aLen.toNat ≤ s.chip.bufCap ∧
      ((∃ err, decodeFrame e s.chip (sliceA e s) = .error err ∧ decode1Cmd e s =
          raise err (scramble e s.aOff.toNat s.aLen.toNat (clearResults s))) ∨
       ∃ p, decodeFrame e s.chip (sliceA e s) = .ok p ∧ decode1Cmd e s =
          setPacket e p (scramble e s.aOff.toNat s.aLen.toNat (clearResults s)))) := by
  by_cases ha : s.aOff.toNat + s.aLen.toNat ≤ s.chip.bufCap
  · refine .inr ⟨ha, ?_⟩
    cases hu : decodeFrame e s.chip (sliceA e s) with
    | error err => exact .inl ⟨err, rfl, by simp [decode1Cmd, admissible, ha, hu]⟩
    | ok p => exact .inr ⟨p, rfl, by simp [decode1Cmd, admissible, ha, hu]⟩
  · exact .inl ⟨by omega, by simp [decode1Cmd, admissible, ha]⟩

/-- What a successful `DECODES` leaves (R171, R172). -/
def decodesDone (cur : Nat) (pkts : List Packet) : State :=
  setCnt pkts.length <| setSlice (s.aOff.toNat + cur) (s.aLen.toNat - cur) <|
    scramble e s.aOff.toNat cur (writePackets e pkts (clearResults s))

/-- What a `DECODES` that met a bad frame leaves (R173). -/
def decodesFailed (err : CmdError) (z : Nat) : State :=
  raise err (scrambleOut e s.outCap.toNat (scramble e s.aOff.toNat z (clearResults s)))

theorem decodesCmd_cases :
    (s.chip.bufCap < s.aOff.toNat + s.aLen.toNat ∧ decodesCmd e s = rejected (.operandError 2) s) ∨
    (s.aOff.toNat + s.aLen.toNat ≤ s.chip.bufCap ∧
      ((s.chip.outSlots < s.outCap.toNat ∧ decodesCmd e s = rejected (.operandError 5) s) ∨
       (s.outCap.toNat ≤ s.chip.outSlots ∧
        ((∃ err z k, decodeStream e s.chip (sliceA e s) s.outCap.toNat = .err err z k ∧
            decodesCmd e s = decodesFailed e s err z) ∨
         ∃ cur pkts, decodeStream e s.chip (sliceA e s) s.outCap.toNat = .ok cur pkts ∧
            decodesCmd e s = decodesDone e s cur pkts)))) := by
  by_cases ha : s.aOff.toNat + s.aLen.toNat ≤ s.chip.bufCap
  · refine .inr ⟨ha, ?_⟩
    by_cases ho : s.chip.outSlots < s.outCap.toNat
    · exact .inl ⟨ho, by simp [decodesCmd, admissible, ha, ho]⟩
    · refine .inr ⟨by omega, ?_⟩
      cases hu : decodeStream e s.chip (sliceA e s) s.outCap.toNat with
      | ok cur pkts =>
        exact .inr ⟨cur, pkts, rfl, by simp [decodesCmd, admissible, ha, ho, hu, decodesDone]⟩
      | err err z k =>
        exact .inl ⟨err, z, k, rfl, by simp [decodesCmd, admissible, ha, ho, hu, decodesFailed]⟩
  · exact .inl ⟨by omega, by simp [decodesCmd, admissible, ha]⟩

end

end Sys2Proof.Machine
end

