-- ==== Sys2Proof/Laws/PerInstr.lean ====
section
/-! SUPPORT. What holds of every command as syntax: it is well formed, and its code is an assigned one
(R84 to R86). One lemma per constructor. -/

namespace Sys2Proof.Laws.CodeAssigned

/-- The command is well formed and its code is assigned. -/
def Statement (i : Instr) : Prop :=
  i.wellFormed = true ∧ codeAssigned (encode i) = true

theorem pload : Statement .pload := ⟨rfl, rfl⟩
theorem devchk : Statement .devchk := ⟨rfl, rfl⟩
theorem crc16 : Statement .crc16 := ⟨rfl, rfl⟩
theorem stuff : Statement .stuff := ⟨rfl, rfl⟩
theorem unstuff : Statement .unstuff := ⟨rfl, rfl⟩
theorem encsize : Statement .encsize := ⟨rfl, rfl⟩
theorem encode : Statement .encode := ⟨rfl, rfl⟩
theorem decode1 : Statement .decode1 := ⟨rfl, rfl⟩
theorem decodes : Statement .decodes := ⟨rfl, rfl⟩

end Sys2Proof.Laws.CodeAssigned
end

