-- ==== Sys2Proof/Laws/Stuffing.lean ====
section
/-! SUPPORT. The loops of `stuff` and `unstuff` without their fuel: one equation for each, and the
induction over blocks that both follow. -/

namespace Sys2Proof.Machine

/-! ### The leading run -/

theorem leadingRun_length_le (raw : List Byte) : (leadingRun raw).length ≤ blockMax :=
  le_trans (List.takeWhile_prefix _).length_le (by simp)

theorem leadingRun_prefix (raw : List Byte) : leadingRun raw <+: raw :=
  (List.takeWhile_prefix _).trans (List.take_prefix ..)

theorem zero_notMem_leadingRun (raw : List Byte) : 0#8 ∉ leadingRun raw := by
  intro h
  simpa using List.mem_takeWhile_imp h

/-- The leading run and what follows it make up the bytes. -/
theorem leadingRun_append_drop (raw : List Byte) :
    leadingRun raw ++ raw.drop (leadingRun raw).length = raw := by
  obtain ⟨t, ht⟩ := leadingRun_prefix raw
  have h : ∀ run : List Byte, run ++ t = raw → run ++ raw.drop run.length = raw := by
    rintro run rfl
    rw [List.drop_left]
  exact h _ ht

/-- The leading run of non-zero bytes, fewer than 254, that end or are followed by a zero. -/
theorem leadingRun_eq_of_stop {run after : List Byte} (h0 : 0#8 ∉ run) (hl : run.length < blockMax)
    (ha : after = [] ∨ ∃ rest, after = 0#8 :: rest) : leadingRun (run ++ after) = run := by
  have hall : ∀ x ∈ run, (x != 0#8) = true := by
    intro x hx
    simp only [bne_iff_ne]
    rintro rfl
    exact h0 hx
  rw [leadingRun, List.take_append, List.take_of_length_le (le_of_lt hl),
    List.takeWhile_append_of_pos hall]
  obtain ⟨k, hk⟩ : ∃ k, blockMax - run.length = k + 1 := ⟨blockMax - run.length - 1, by omega⟩
  rcases ha with rfl | ⟨rest, rfl⟩
  · simp
  · simp [hk]

/-- The leading run of 254 non-zero bytes, whatever follows. -/
theorem leadingRun_eq_of_full {run after : List Byte} (h0 : 0#8 ∉ run) (hl : run.length = blockMax) :
    leadingRun (run ++ after) = run := by
  rw [leadingRun, List.take_append, List.take_of_length_le (le_of_eq hl)]
  simp only [hl, Nat.sub_self, List.take_zero, List.append_nil]
  rw [List.takeWhile_eq_self_iff]
  intro x hx
  simp only [bne_iff_ne]
  rintro rfl
  exact h0 hx

/-- A short leading run stops at a zero. -/
theorem leadingRun_stop_zero {run after : List Byte} {x : Byte} (hl : run.length < blockMax)
    (h : leadingRun (run ++ x :: after) = run) : x = 0#8 := by
  by_contra hx
  have h0 : 0#8 ∉ run := h ▸ zero_notMem_leadingRun (run ++ x :: after)
  have hall : ∀ y ∈ run, (y != 0#8) = true := by
    intro y hy
    simp only [bne_iff_ne]
    rintro rfl
    exact h0 hy
  obtain ⟨k, hk⟩ : ∃ k, blockMax - run.length = k + 1 := ⟨blockMax - run.length - 1, by omega⟩
  rw [leadingRun, List.take_append, List.take_of_length_le (le_of_lt hl),
    List.takeWhile_append_of_pos hall] at h
  simp [hk] at h
  exact hx h

/-! ### `stuff` -/

/-- More fuel than bytes changes nothing. -/
theorem stuffLoop_fuel {fuel : Nat} {raw : List Byte} (hne : raw ≠ []) (hf : raw.length ≤ fuel) :
    stuffLoop fuel raw = stuffLoop raw.length raw := by
  induction fuel using Nat.strongRecOn generalizing raw with
  | ind fuel ih =>
    obtain ⟨n, hn⟩ : ∃ n, raw.length = n + 1 :=
      ⟨raw.length - 1, by have := List.length_pos_iff.mpr hne; omega⟩
    obtain ⟨m, rfl⟩ : ∃ m, fuel = m + 1 := ⟨fuel - 1, by omega⟩
    have key : ∀ rest : List Byte, rest ≠ [] → rest.length ≤ n →
        stuffLoop m rest = stuffLoop n rest := by
      intro rest hr hl
      rw [ih m (by omega) hr (by omega)]
      by_cases hm : n = m
      · rw [hm, ih m (by omega) hr (by omega)]
      · rw [ih n (by omega) hr hl]
    rw [hn]
    simp only [stuffLoop]
    split
    · next hfull =>
      have hlen : (raw.drop (leadingRun raw).length).length ≤ n := by
        simp [blockMax] at hfull ⊢; omega
      split
      · rfl
      · next hr => rw [key _ hr hlen]
    · split
      · rfl
      · next x after hdrop =>
        have hlen : after.length ≤ n := by
          have := congrArg List.length hdrop
          simp at this; omega
        split
        · rfl
        · next hr => rw [key _ hr hlen]

/-- Data with a full block first. -/
theorem stuff_full {run after : List Byte} (h0 : 0#8 ∉ run) (hl : run.length = blockMax) :
    stuff (run ++ after) = 0xFF#8 :: (run ++ if after = [] then [] else stuff after) := by
  have hne : run ++ after ≠ [] := by
    intro h; rw [List.append_eq_nil_iff] at h; simp [h.1, blockMax] at hl
  have hl' : (run ++ after).length = (253 + after.length) + 1 := by
    simp [hl, blockMax]; omega
  rw [stuff, if_neg hne, hl', stuffLoop]
  simp only [leadingRun_eq_of_full h0 hl, hl, if_true, List.cons_append, List.cons.injEq, true_and]
  rw [← hl, List.drop_left]
  split
  · rfl
  · next hr => rw [stuffLoop_fuel hr (by omega), stuff, if_neg hr]

/-- Data that is one short run. -/
theorem stuff_run {run : List Byte} (h0 : 0#8 ∉ run) (hl : run.length < blockMax) :
    stuff run = BitVec.ofNat 8 (run.length + 1) :: run := by
  by_cases hne : run = []
  · subst hne; rfl
  · have hr : leadingRun run = run := by
      simpa using leadingRun_eq_of_stop h0 hl (.inl rfl)
    obtain ⟨n, hn⟩ : ∃ n, run.length = n + 1 :=
      ⟨run.length - 1, by have := List.length_pos_iff.mpr hne; omega⟩
    rw [stuff, if_neg hne, hn, stuffLoop]
    simp only [hr, List.drop_length]
    rw [if_neg (by omega), hn]
    simp

/-- Data that begins with a short run and a zero. -/
theorem stuff_run_zero {run after : List Byte} (h0 : 0#8 ∉ run) (hl : run.length < blockMax) :
    stuff (run ++ 0#8 :: after) = BitVec.ofNat 8 (run.length + 1) :: (run ++ stuff after) := by
  have hr : leadingRun (run ++ 0#8 :: after) = run := leadingRun_eq_of_stop h0 hl (.inr ⟨_, rfl⟩)
  have hlen : (run ++ 0#8 :: after).length = (run.length + after.length) + 1 := by simp; omega
  rw [stuff, if_neg (by simp), hlen, stuffLoop]
  simp only [hr, List.drop_left, if_neg (Nat.ne_of_lt hl), List.cons_append, List.cons.injEq, true_and]
  congr 1
  by_cases ha : after = []
  · simp [ha, stuff]
  · rw [if_neg ha, stuffLoop_fuel ha (by omega), stuff, if_neg ha]

/-- Induction over the blocks of data: a short run that ends it, a short run and a zero, a full block. -/
theorem block_induction {motive : List Byte → Prop}
    (run : ∀ run, 0#8 ∉ run → run.length < blockMax → motive run)
    (run_zero : ∀ run after, 0#8 ∉ run → run.length < blockMax → motive after →
      motive (run ++ 0#8 :: after))
    (full : ∀ run after, 0#8 ∉ run → run.length = blockMax → motive after → motive (run ++ after))
    (raw : List Byte) : motive raw := by
  induction hn : raw.length using Nat.strongRecOn generalizing raw with
  | ind n ih =>
    have hsplit := leadingRun_append_drop raw
    have h0 := zero_notMem_leadingRun raw
    rcases Nat.lt_or_ge (leadingRun raw).length blockMax with hlt | hge
    · cases hd : raw.drop (leadingRun raw).length with
      | nil =>
        rw [hd, List.append_nil] at hsplit
        rw [← hsplit]
        exact run _ h0 hlt
      | cons x after =>
        rw [hd] at hsplit
        have hx : x = 0#8 := by
          have hself : leadingRun (leadingRun raw ++ x :: after) = leadingRun raw := by rw [hsplit]
          exact leadingRun_stop_zero hlt hself
        subst hx
        have hlen : after.length < n := by
          have := congrArg List.length hsplit
          simp at this; omega
        rw [← hsplit]
        exact run_zero _ _ h0 hlt (ih _ hlen after rfl)
    · have heq : (leadingRun raw).length = blockMax := le_antisymm (leadingRun_length_le raw) hge
      have hlen : (raw.drop (leadingRun raw).length).length < n := by
        have := congrArg List.length hsplit
        simp [blockMax] at this heq ⊢; omega
      rw [← hsplit]
      exact full _ _ h0 heq (ih _ hlen _ rfl)

/-! ### `unstuff` -/

/-- More fuel than bytes changes nothing. -/
theorem unstuffLoop_fuel {fuel : Nat} {s : List Byte} (hf : s.length ≤ fuel) :
    unstuffLoop fuel s = unstuff s := by
  rw [unstuff]
  induction fuel using Nat.strongRecOn generalizing s with
  | ind fuel ih =>
    cases s with
    | nil => cases fuel <;> rfl
    | cons c rest =>
      simp only [List.length_cons] at hf
      obtain ⟨m, rfl⟩ : ∃ m, fuel = m + 1 := ⟨fuel - 1, by omega⟩
      have hd : (rest.drop (c.toNat - 1)).length ≤ rest.length := by simp
      have hrec : unstuffLoop m (rest.drop (c.toNat - 1))
          = unstuffLoop rest.length (rest.drop (c.toNat - 1)) := by
        rw [ih m (by omega) (by omega)]
        by_cases hm : m = rest.length
        · rw [← hm, ih m (by omega) (by omega)]
        · rw [ih rest.length (by omega) hd]
      simp only [List.length_cons, unstuffLoop, hrec]

/-- One block of `unstuff`. -/
theorem unstuff_block {c : Byte} {blk after : List Byte} (hc : c ≠ 0#8) (hb : blk.length = c.toNat - 1) :
    unstuff (c :: (blk ++ after)) =
      if 0#8 ∈ blk then none
      else (unstuff after).map fun out => blk ++ (if c ≠ 0xFF#8 ∧ after ≠ [] then [0#8] else []) ++ out := by
  have hlen : ¬ (blk ++ after).length < c.toNat - 1 := by simp; omega
  rw [unstuff, List.length_cons, unstuffLoop, if_neg hc, if_neg hlen]
  simp only [← hb, List.take_left, List.drop_left]
  rw [unstuffLoop_fuel (by simp)]
  split
  · rfl
  · cases unstuff after <;> rfl

end Sys2Proof.Machine
end

