-- ==== Sys2Proof/Machine/Reference.lean ====
section
/-! DEFINITION. The vector instantiation of the open parameters (R10, R112): the spec's own choice for
its test vectors, no claim about the hardware. The machine does not use it. -/

namespace Sys2Proof.Machine

/-- One bit of `CRC16_REF`: shift left, and reduce by the polynomial `0x755B` if bit 15 was set (R112). -/
def crcRefBit (c : BitVec 16) : BitVec 16 :=
  if c.getLsbD 15 then (c <<< 1) ^^^ 0x755B else c <<< 1

/-- One byte of `CRC16_REF` (R112). -/
def crcRefByte (c : BitVec 16) (b : Byte) : BitVec 16 :=
  let c := c ^^^ (b.setWidth 16 <<< 8)
  crcRefBit (crcRefBit (crcRefBit (crcRefBit (crcRefBit (crcRefBit (crcRefBit (crcRefBit c)))))))

/-- `CRC16_REF` (R112). -/
def crc16Ref (s : List Byte) : BitVec 16 := s.foldl crcRefByte 0

/-- The vector instantiation of the checksum, with given free values (R10). -/
def refEnv (anyBits : Nat → BitVec 64) (powerUp : Nat → CellName → BitVec 64) : Env where
  crc16 := crc16Ref
  anyBits := anyBits
  powerUp := powerUp

/-- The vector instantiation of the constants (R10), with the sizes of the example programs: `BUF_CAP` is
1024 and `OUT_SLOTS` is 4. -/
def refChip : Chip where
  version := 0x01
  devid31 := false
  bufTop := 1023
  outTop := 3

end Sys2Proof.Machine
end

