-- ==== Sys2Proof/Tests/Slice0.lean ====
section
/-! SUPPORT. The model's own tests: the smoke test of WellFormed, the command words, at most two vectors of
`95_test_vectors.md` per command, and for every statement with hypotheses a named witness that meets them. -/

namespace Sys2Proof.Tests

open Sys2Proof.Machine

/-! ### Small states and data -/

/-- The reset state of the reference chip, with slices A and B, `OUT_CAP`, and bytes at the start of `BUF`. -/
def withSlices (aOff aLen bOff bLen outCap : Nat) (bytes : List Byte) : State :=
  { State.afterReset Config.env refChip 0 with
    aOff := BitVec.ofNat 32 aOff
    aLen := BitVec.ofNat 32 aLen
    bOff := BitVec.ofNat 32 bOff
    bLen := BitVec.ofNat 32 bLen
    outCap := BitVec.ofNat 32 outCap
    buf := memSetFrom [] 0 bytes }

/-- `withSlices` with a packet in the packet register. -/
def withPacket (kind dev ts : Nat) (payload : List Byte) (aOff aLen : Nat) : State :=
  { withSlices aOff aLen 0 0 0 [] with
    pkKind := BitVec.ofNat 1 kind
    pkDev := BitVec.ofNat 8 dev
    pkTs := BitVec.ofNat 64 ts
    pkPlen := BitVec.ofNat 8 payload.length
    pld := padPayload Config.env 0 payload }

/-- The environment of the vectors, with every free value 0. -/
def vecEnv : Env := refEnv (fun _ => 0) (fun _ _ => 0)

/-- `nz(n)` of `95_test_vectors.md`. -/
def nz : Nat → Nat → List Byte
  | 0, _ => []
  | n + 1, i => BitVec.ofNat 8 (i % 255 + 1) :: nz n (i + 1)

/-- The next state, where there is one. -/
def stateOf : Host.Outcome State Fault Refusal → Option State
  | .next t => some t
  | .fault _ => none
  | .refused _ => none

/-- A property of the next state. -/
def after (o : Host.Outcome State Fault Refusal) (p : State → Bool) : Bool :=
  match stateOf o with
  | some t => p t
  | none => false

/-- Packets A and B, and the wire frames A, B and (bad) B of `95_test_vectors.md`. -/
def packetA : Packet := { kind := 0, dev := 3, ts := 0x0102030405060708, payload := [0x41, 0x42] }

def packetB : Packet := { kind := 1, dev := 15, ts := 0, payload := [] }

def wireA : List Byte :=
  [0x10, 0x01, 0x02, 0x0C, 0x08, 0x07, 0x06, 0x05, 0x04, 0x03, 0x02, 0x01, 0x41, 0x42, 0xCC, 0xC5, 0x00]

def wireB : List Byte :=
  [0x02, 0x01, 0x02, 0xBC, 0x01, 0x01, 0x01, 0x01, 0x01, 0x01, 0x01, 0x03, 0x41, 0x60, 0x00]

def wireBad : List Byte :=
  [0x02, 0x01, 0x03, 0xBC, 0x40, 0x01, 0x01, 0x01, 0x01, 0x01, 0x01, 0x03, 0x41, 0x60, 0x00]

/-! ### WellFormed and Decode -/

/-- The codes R86 calls reserved select no command. -/
theorem test_codes_reserved :
    codeAssigned 0x00#8 = false ∧ codeAssigned 0x0A#8 = false ∧ codeAssigned 0xFF#8 = false ∧
    codeAssigned 0x01#8 = true ∧ codeAssigned 0x09#8 = true := by decide

/-- R86, at both ends of the reserved range. -/
theorem test_decode_reserved :
    decode 0b00000000#8 = .error (.reservedCode 0x00#8) ∧
    decode 0b00001010#8 = .error (.reservedCode 0x0A#8) ∧
    decode 0b11111111#8 = .error (.reservedCode 0xFF#8) ∧
    decodeTableWord 8 0x0A = none := by decide

/-- The words of `opcode_table.json`, bit by bit. -/
theorem test_decode_words :
    decode 0b00000001#8 = .ok .pload ∧ decode 0b00000010#8 = .ok .devchk ∧
    decode 0b00000011#8 = .ok .crc16 ∧ decode 0b00000100#8 = .ok .stuff ∧
    decode 0b00000101#8 = .ok .unstuff ∧ decode 0b00000110#8 = .ok .encsize ∧
    decode 0b00000111#8 = .ok .encode ∧ decode 0b00001000#8 = .ok .decode1 ∧
    decode 0b00001001#8 = .ok .decodes := by decide

/-- From reset, a command word placed by `withFetchWord` runs in the next step: `ENCSIZE` of an empty
payload is 28 (V30). -/
theorem test_fetch_runs :
    after (step (State.reset.withFetchWord 8 0x06)) (fun t => t.rVal == 28 && t.cmd == 6) = true := by
  decide +kernel

/-! ### One step of each command -/

/-- V2. -/
theorem test_pload :
    after (exec .pload (withSlices 1 2 0 0 0 [0x00, 0x41, 0x42]))
      (fun t => t.status == 0 && t.pkPlen == 2 && pkPayload t == [0x41, 0x42]) = true := by decide +kernel

/-- V4. -/
theorem test_pload_too_long :
    after (exec .pload (withSlices 0 256 0 0 0 [])) (fun t => t.status == 7 && t.eA == 256) = true := by
  decide +kernel

/-- V8. -/
theorem test_devchk :
    after (exec .devchk (withPacket 0 15 0 [] 0 0)) (fun t => t.status == 0) = true := by decide +kernel

/-- V12. -/
theorem test_devchk_above :
    after (exec .devchk (withPacket 0 32 0 [] 0 0)) (fun t => t.status == 6 && t.eA == 32) = true := by
  decide +kernel

/-- V16, V18. -/
theorem test_crc16 :
    (crc16Cmd vecEnv (withSlices 0 1 0 0 0 [0x01])).rVal = 0x755B ∧
    (crc16Cmd vecEnv (withSlices 0 9 0 0 0
      [0x31, 0x32, 0x33, 0x34, 0x35, 0x36, 0x37, 0x38, 0x39])).rVal = 0x20FE := by decide +kernel

/-- V27 as a command. -/
theorem test_stuff :
    after (exec .stuff (withSlices 0 4 16 5 0 [0x11, 0x22, 0x00, 0x33]))
      (fun t => t.status == 0 && t.rOff == 16 && t.rLen == 5
        && readBytes Config.env t 16 5 == [0x03, 0x11, 0x22, 0x02, 0x33]) = true := by decide +kernel

/-- The overlap of section 2.3. -/
theorem test_stuff_overlap :
    after (exec .stuff (withSlices 0 4 2 8 0 [])) (fun t => t.status == 15 && t.eA == 4) = true := by
  decide +kernel

/-- V37. -/
theorem test_unstuff :
    after (exec .unstuff (withSlices 0 6 0 0 0 [0x03, 0x11, 0x22, 0x02, 0x33, 0x00]))
      (fun t => t.status == 0 && t.rLen == 4
        && readBytes Config.env t 0 4 == [0x11, 0x22, 0x00, 0x33]) = true := by decide +kernel

/-- V38c. -/
theorem test_unstuff_two_zeros :
    after (exec .unstuff (withSlices 0 4 0 0 0 [0x02, 0x11, 0x00, 0x00]))
      (fun t => t.status == 1 && t.rLen == 0) = true := by decide +kernel

/-- V30 at 241 and 242, where a second code byte comes in. -/
theorem test_encsize :
    after (exec .encsize (withPacket 0 0 0 (nz 241 0) 0 0)) (fun t => t.rVal == 510) = true ∧
    after (exec .encsize (withPacket 0 0 0 (nz 242 0) 0 0)) (fun t => t.rVal == 513) = true := by
  decide +kernel

/-- V41, wire and raw frame. -/
theorem test_encode :
    let t := encodeCmd vecEnv (withPacket 1 15 0 [] 4 28)
    t.rOff = 17 ∧ t.rLen = 15 ∧ readBytes vecEnv t 17 15 = wireB ∧
    readBytes vecEnv t 4 13 =
      [0x01, 0x00, 0xBC, 0x00, 0x00, 0x00, 0x00, 0x00, 0x00, 0x00, 0x00, 0x41, 0x60] := by decide +kernel

/-- V52. -/
theorem test_encode_operand_first :
    after (exec .encode (withPacket 0 16 0 [0x41, 0x42] 0 31))
      (fun t => t.status == 15 && t.eA == 6) = true := by decide +kernel

/-- V53 on frame A. -/
theorem test_decode1 :
    let t := decode1Cmd vecEnv (withSlices 0 17 0 0 0 wireA)
    t.status = 0 ∧ t.pkKind = 0 ∧ t.pkDev = 3 ∧ t.pkTs = 0x0102030405060708 ∧ t.pkPlen = 2 ∧
    pkPayload t = [0x41, 0x42] := by decide +kernel

/-- V56. -/
theorem test_decode1_checksum :
    let t := decode1Cmd vecEnv (withSlices 0 17 0 0 0 (wireA.set 12 0x40))
    t.status = 4 ∧ t.eA = 0x29ED ∧ t.eB = 0xC5CC := by decide +kernel

/-- V73 with one byte of the second frame left over. -/
theorem test_decodes :
    let t := decodesCmd vecEnv (withSlices 0 18 0 0 1 (wireA ++ [0x02]))
    t.status = 0 ∧ t.rCnt = 1 ∧ t.rOff = 17 ∧ t.rLen = 1 ∧ readBytes vecEnv t 17 1 = [0x02] ∧
    slotPacket (readOut vecEnv t 0) = packetA := by decide +kernel

/-- V81. -/
theorem test_decodes_abort :
    let t := decodesCmd vecEnv (withSlices 0 32 0 0 4 (wireA ++ wireBad))
    t.status = 4 ∧ t.eA = 0x3E80 ∧ t.eB = 0x6041 ∧ t.rCnt = 0 ∧ t.rLen = 0 ∧
    readBytes vecEnv t 31 1 = [0x00] := by decide +kernel

/-! ### Witnesses: the hypotheses of each statement, one state per clause, at a boundary -/

/-- An empty-payload packet whose wire frame is known but for the two checksum bytes. -/
def packetE : Packet := { kind := 0, dev := 0, ts := 0, payload := [] }

/-- The last blocks of its stuffed form, whichever of the two bytes is zero. -/
def crcBlocks (lo hi : Byte) : List Byte :=
  if lo = 0#8 then (if hi = 0#8 then [1#8, 1#8, 1#8] else [1#8, 2#8, hi])
  else if hi = 0#8 then [2#8, lo, 1#8] else [3#8, lo, hi]

/-- A stuffed form of `packetE` with these checksum bytes. -/
def stuffedE (lo hi : Byte) : List Byte :=
  [2#8, 1#8, 1#8, 1#8, 1#8, 1#8, 1#8, 1#8, 1#8, 1#8, 1#8] ++ crcBlocks lo hi

theorem zero_eq_byte (b : Byte) : (0#8 = b) = (b = 0#8) := propext eq_comm

theorem stuffedE_length (lo hi : Byte) : (stuffedE lo hi).length = 14 := by
  simp only [stuffedE, crcBlocks]
  split <;> split <;> rfl

theorem stuffedE_noZero (lo hi : Byte) : 0#8 ∉ stuffedE lo hi := by
  by_cases hl : lo = 0#8 <;> by_cases hh : hi = 0#8 <;>
    simp [stuffedE, crcBlocks, hl, hh, zero_eq_byte]

theorem stuffedE_unstuff (lo hi : Byte) :
    unstuff (stuffedE lo hi) =
      some ([1#8, 0#8, 0#8, 0#8, 0#8, 0#8, 0#8, 0#8, 0#8, 0#8, 0#8] ++ [lo, hi]) := by
  by_cases hl : lo = 0#8 <;> by_cases hh : hi = 0#8 <;>
    simp [stuffedE, crcBlocks, unstuff, unstuffLoop, hl, hh, zero_eq_byte]

/-- The checksum of `packetE` by the machine's own function, which is open. -/
def openCrc : BitVec 16 := Config.env.crc16 (frameBody refChip packetE)

/-- A stuffed form of `packetE` on the machine. -/
def openFrame : List Byte := stuffedE (openCrc.extractLsb' 0 8) (openCrc.extractLsb' 8 8)

theorem openFrame_decodes : decodeFrame Config.env refChip openFrame = .ok packetE := by
  have hz : openFrame.getLast? ≠ some 0#8 := fun h =>
    stuffedE_noZero _ _ (List.mem_of_getLast? h)
  have hs : stripTerm openFrame = openFrame := by simp [stripTerm, hz]
  have hu : unstuff openFrame = some (frameBody refChip packetE ++
      [openCrc.extractLsb' 0 8, openCrc.extractLsb' 8 8]) := stuffedE_unstuff _ _
  have hb : frameBody refChip packetE =
      [1#8, 0#8, 0#8, 0#8, 0#8, 0#8, 0#8, 0#8, 0#8, 0#8, 0#8] := by decide
  have hx : Config.env.crc16 [1#8, 0#8, 0#8, 0#8, 0#8, 0#8, 0#8, 0#8, 0#8, 0#8, 0#8] = openCrc := by
    rw [openCrc, hb]
  rw [decodeFrame, hs, hu, hb]
  simp only [parseFrame]
  simp [hx, refChip, controlDev, controlKind, devAssigned, packetE, fromLe]
  apply BitVec.eq_of_toNat_eq
  have := openCrc.isLt
  simp [Nat.shiftRight_eq_div_pow]
  omega

/-- The machine with `openFrame` and a terminator in slice A. -/
def openState (aLen outCap : Nat) : State := withSlices 0 aLen 0 0 outCap (openFrame ++ [0#8])

theorem openState_sliceA (outCap : Nat) :
    sliceA Config.env (openState 15 outCap) = openFrame ++ [0#8] := by
  have h := readBytes_writeBytes Config.env (withSlices 0 15 0 0 outCap []) 0 (openFrame ++ [0#8])
  have hl : (openFrame ++ [0#8]).length = 15 := by simp [openFrame, stuffedE_length]
  rw [hl] at h
  exact h

theorem openState_decodes :
    decodeFrame Config.env refChip (sliceA Config.env (openState 15 0)) = .ok packetE := by
  have hs : stripTerm (openFrame ++ [0#8]) = stripTerm openFrame := by
    have hz : openFrame.getLast? ≠ some 0#8 := fun h =>
      stuffedE_noZero _ _ (List.mem_of_getLast? h)
    simp [stripTerm, hz]
  rw [openState_sliceA, decodeFrame, hs]
  exact openFrame_decodes

theorem openState_streams :
    decodeStream Config.env refChip (sliceA Config.env (openState 15 1)) 1 = .ok 15 [packetE] := by
  have hl : openFrame.length = 14 := stuffedE_length _ _
  have hf : findZero (openFrame ++ [0#8]) = some 14 := by
    have key : ∀ l : List Byte, 0#8 ∉ l → findZero (l ++ [0#8]) = some l.length := by
      intro l h
      induction l with
      | nil => rfl
      | cons b l ih =>
        have hb : ¬ b = 0#8 := fun hb => h (by simp [hb])
        simp [findZero, hb, ih fun hm => h (List.mem_cons_of_mem _ hm)]
    rw [key openFrame (stuffedE_noZero _ _), hl]
  have ht : (openFrame ++ [0#8]).take 14 = openFrame := by rw [← hl, List.take_left]
  rw [openState_sliceA, decodeStream, streamLoop, hf]
  simp only [ht, openFrame_decodes]
  rfl

theorem witness_DecodeInvertsEncode :
    Instr.encode.wellFormed = true ∧ decode 0x09#8 = .ok .decodes := by decide

theorem witness_ReservedCodeIsOperandError :
    (0 % 256 = 0 ∨ 0x0A ≤ 0 % 256) ∧ (10 % 256 = 0 ∨ 0x0A ≤ 10 % 256) ∧
    (255 % 256 = 0 ∨ 0x0A ≤ 255 % 256) ∧ (256 % 256 = 0 ∨ 0x0A ≤ 256 % 256) := by decide

theorem witness_StepMakesTheNextHostMove :
    ({ State.reset with moves := [.get .cmd] } : State).moves = .get .cmd :: [] ∧
    State.reset.moves = [] := by decide

theorem witness_StepRunsTheDecodedCommand :
    ({ State.reset with moves := [.set .cmd 0x109] } : State).moves = .set .cmd 0x109 :: [] ∧
    decode (BitVec.ofNat 8 0x109) = .ok .decodes ∧ decodeTableWord 8 0x01 = some .pload := by decide

theorem witness_HostRegisterWriteKeepsLowBits : Reg.pkKind ≠ .cmd ∧ Reg.version ≠ .cmd := by decide

theorem witness_HostPokeWritesItsBytes :
    (withSlices 0 0 0 0 0 []).chip.bufCap = 1024 ∧
    1022 + [1#8, 2#8].length ≤ 1024 ∧ 1024 + ([] : List Byte).length ≤ 1024 ∧
    1024 < 1023 + [1#8, 2#8].length ∧ 1024 < 1025 + ([] : List Byte).length := by decide

/-- The first byte has a cell, the second has none (R30; log 7). -/
theorem test_poke_at_the_end :
    after (hostMove (.poke 1023 [7#8, 8#8]) (withSlices 0 0 0 0 0 []))
      (fun t => t.buf == [(1023, 7#8)]) = true := by decide

/-- A state whose next move is this one. -/
def withMove (m : HostMove) : State := { withSlices 0 0 0 0 0 [] with moves := [m] }

theorem witness_VersionAlwaysReadsTheConstant : ∃ t, step (withMove (.set .version 7)) = .next t :=
  ⟨_, rfl⟩

theorem witness_PloadLoadsThePayload :
    (let s := withSlices 769 255 0 0 0 [];
      s.aOff.toNat + s.aLen.toNat ≤ s.chip.bufCap ∧ s.aLen.toNat ≤ 255) ∧
    (let s := withSlices 1024 1 0 0 0 [];
      s.chip.bufCap < s.aOff.toNat + s.aLen.toNat) ∧
    (let s := withSlices 768 256 0 0 0 [];
      s.aOff.toNat + s.aLen.toNat ≤ s.chip.bufCap ∧ 255 < s.aLen.toNat) := by decide

theorem witness_DevchkJudgesTheDeviceCode :
    (let s := withPacket 0 15 0 [] 0 0;
      s.pkDev.toNat ≤ 15 ∨ (s.pkDev.toNat = 31 ∧ s.chip.devid31 = true)) ∧
    (let s := { withPacket 0 31 0 [] 0 0 with chip := { refChip with devid31 := true } };
      s.pkDev.toNat ≤ 15 ∨ (s.pkDev.toNat = 31 ∧ s.chip.devid31 = true)) ∧
    (let s := withPacket 0 16 0 [] 0 0;
      ¬ (s.pkDev.toNat ≤ 15 ∨ (s.pkDev.toNat = 31 ∧ s.chip.devid31 = true))) ∧
    (let s := withPacket 0 31 0 [] 0 0;
      ¬ (s.pkDev.toNat ≤ 15 ∨ (s.pkDev.toNat = 31 ∧ s.chip.devid31 = true))) := by decide

theorem witness_Crc16GivesTheChecksum :
    (let s := withSlices 1024 0 0 0 0 [];
      s.aOff.toNat + s.aLen.toNat ≤ s.chip.bufCap) ∧
    (let s := withSlices 1024 1 0 0 0 [];
      s.chip.bufCap < s.aOff.toNat + s.aLen.toNat) := by decide

theorem witness_StuffWritesTheStuffedSlice :
    (let s := withSlices 0 4 4 5 0 [];
      s.aOff.toNat + s.aLen.toNat ≤ s.chip.bufCap ∧ s.bOff.toNat + s.bLen.toNat ≤ s.chip.bufCap ∧
      ¬ slicesOverlap s ∧ stuffMax s.aLen.toNat ≤ s.bLen.toNat) ∧
    (let s := withSlices 1025 0 0 0 0 [];
      s.chip.bufCap < s.aOff.toNat + s.aLen.toNat) ∧
    (let s := withSlices 0 4 1020 5 0 [];
      s.aOff.toNat + s.aLen.toNat ≤ s.chip.bufCap ∧ s.chip.bufCap < s.bOff.toNat + s.bLen.toNat) ∧
    (let s := withSlices 0 4 3 5 0 [];
      s.aOff.toNat + s.aLen.toNat ≤ s.chip.bufCap ∧ s.bOff.toNat + s.bLen.toNat ≤ s.chip.bufCap ∧
      slicesOverlap s) ∧
    (let s := withSlices 0 4 4 4 0 [];
      s.aOff.toNat + s.aLen.toNat ≤ s.chip.bufCap ∧ s.bOff.toNat + s.bLen.toNat ≤ s.chip.bufCap ∧
      ¬ slicesOverlap s ∧ s.bLen.toNat < stuffMax s.aLen.toNat) := by decide

theorem witness_UnstuffWorksInPlace :
    (let s := withSlices 0 2 0 0 0 [0x02, 0x11];
      s.aOff.toNat + s.aLen.toNat ≤ s.chip.bufCap ∧
      unstuff (stripTerm (sliceA Config.env s)) = some [0x11]) ∧
    (let s := withSlices 0 1 0 0 0 [0x02];
      s.aOff.toNat + s.aLen.toNat ≤ s.chip.bufCap ∧
      unstuff (stripTerm (sliceA Config.env s)) = none) ∧
    (let s := withSlices 0 1025 0 0 0 [];
      s.chip.bufCap < s.aOff.toNat + s.aLen.toNat) := by decide +kernel

theorem witness_EncodeWritesTheWireFrame :
    (let s := withPacket 0 15 0 [] 996 28;
      s.aOff.toNat + s.aLen.toNat ≤ s.chip.bufCap ∧ devAssigned s.chip s.pkDev = true ∧
      encSize s.pkPlen.toNat ≤ s.aLen.toNat) ∧
    (let s := withPacket 0 0 0 [] 997 28;
      s.chip.bufCap < s.aOff.toNat + s.aLen.toNat) ∧
    (let s := withPacket 0 32 0 [] 0 28;
      s.aOff.toNat + s.aLen.toNat ≤ s.chip.bufCap ∧ devAssigned s.chip s.pkDev = false) ∧
    (let s := withPacket 0 0 0 [] 0 27;
      s.aOff.toNat + s.aLen.toNat ≤ s.chip.bufCap ∧ devAssigned s.chip s.pkDev = true ∧
      s.aLen.toNat < encSize s.pkPlen.toNat) := by decide

theorem witness_Decode1RecoversThePacket :
    (let s := openState 15 0;
      s.aOff.toNat + s.aLen.toNat ≤ s.chip.bufCap ∧
      decodeFrame Config.env s.chip (sliceA Config.env s) = .ok packetE) ∧
    (let s := withSlices 0 2 0 0 0 [0x02, 0x11];
      s.aOff.toNat + s.aLen.toNat ≤ s.chip.bufCap ∧
      decodeFrame Config.env s.chip (sliceA Config.env s) = .error (.bufferTooShort 1)) ∧
    (let s := withSlices 1024 1 0 0 0 [];
      s.chip.bufCap < s.aOff.toNat + s.aLen.toNat) :=
  ⟨⟨by decide, openState_decodes⟩, by decide +kernel, by decide⟩

theorem witness_DecodesRecoversTheStream :
    (let s := openState 15 1;
      s.aOff.toNat + s.aLen.toNat ≤ s.chip.bufCap ∧ s.outCap.toNat ≤ s.chip.outSlots ∧
      decodeStream Config.env s.chip (sliceA Config.env s) s.outCap.toNat = .ok 15 [packetE]) ∧
    (let s := withSlices 0 3 0 0 4 [0x02, 0x11, 0x00];
      s.aOff.toNat + s.aLen.toNat ≤ s.chip.bufCap ∧ s.outCap.toNat ≤ s.chip.outSlots ∧
      decodeStream Config.env s.chip (sliceA Config.env s) s.outCap.toNat
        = .err (.bufferTooShort 1) 2 0) ∧
    (let s := withSlices 1025 0 0 0 0 [];
      s.chip.bufCap < s.aOff.toNat + s.aLen.toNat) ∧
    (let s := withSlices 1024 0 0 0 5 [];
      s.aOff.toNat + s.aLen.toNat ≤ s.chip.bufCap ∧ s.chip.outSlots < s.outCap.toNat) :=
  ⟨⟨by decide, by decide, openState_streams⟩, by decide +kernel, by decide, by decide⟩

theorem witness_DecodesKeepsTheRest :
    (let s := openState 15 1;
      s.aOff.toNat + s.aLen.toNat ≤ s.chip.bufCap ∧ s.outCap.toNat ≤ s.chip.outSlots ∧
      decodeStream Config.env s.chip (sliceA Config.env s) s.outCap.toNat = .ok 15 [packetE]) ∧
    (let s := withSlices 0 4 0 0 4 [0x02, 0x11, 0x00, 0x05];
      s.aOff.toNat + s.aLen.toNat ≤ s.chip.bufCap ∧ s.outCap.toNat ≤ s.chip.outSlots ∧
      decodeStream Config.env s.chip (sliceA Config.env s) s.outCap.toNat
        = .err (.bufferTooShort 1) 2 0) :=
  ⟨⟨by decide, by decide, openState_streams⟩, by decide +kernel⟩

theorem witness_RaiseRecordsTheErrorOnly :
    Reg.pkPlen ≠ .status ∧ Reg.pkPlen ≠ .eA ∧ Reg.pkPlen ≠ .eB := by decide

theorem witness_ResultClearingComesFirst :
    (∃ t, exec .devchk (withPacket 0 16 0 [] 0 0) = .next t ∧ t.status ≠ 0#8) ∧
    (∃ t, exec .devchk (withPacket 0 15 0 [] 0 0) = .next t ∧ t.status = 0#8) :=
  ⟨⟨_, rfl, by decide⟩, ⟨_, rfl, by decide⟩⟩

theorem witness_StatusHoldsOnlyKnownCodes :
    (∃ t, exec .stuff State.reset = .next t) ∧
    (∀ v, HostMove.get .status ≠ .set .cmd v) ∧ HostMove.get .status ≠ .reset ∧
    hostMove (.get .status) State.reset = .next State.reset :=
  ⟨⟨_, rfl⟩, by simp, by simp, rfl⟩

theorem witness_NoCommandWritesAnOperandRegister : ∃ t, exec .decodes State.reset = .next t := ⟨_, rfl⟩

theorem witness_FailedCommandKeepsThePacketRegister :
    (∃ t, exec .pload (withSlices 1024 1 0 0 0 []) = .next t ∧ t.status ≠ 0#8 ∧ t.status = 15#8) ∧
    (∃ t, exec .pload (withSlices 0 256 0 0 0 []) = .next t ∧ t.status ≠ 0#8 ∧ t.status = 7#8) ∧
    (∃ t, exec .stuff (withSlices 0 0 0 0 0 []) = .next t ∧ t.status ≠ 0#8 ∧ t.status = 8#8) :=
  ⟨⟨_, rfl, by decide, by decide⟩, ⟨_, rfl, by decide, by decide⟩, ⟨_, rfl, by decide, by decide⟩⟩

theorem witness_WritesStayInTheDestination : ∃ t, exec .encode State.reset = .next t := ⟨_, rfl⟩

theorem witness_OnlyDecodesWritesOutAndOnlyPloadAndDecode1WritePacket :
    ∃ t, exec .unstuff State.reset = .next t ∧ Instr.unstuff ≠ .decodes ∧ Instr.unstuff ≠ .decode1 ∧
      Instr.unstuff ≠ .pload := ⟨_, rfl, by decide, by decide, by decide⟩

/-- Two states that differ in the results, the error registers, `CMD`, the moves and the draws. -/
theorem witness_ResultsDependOnInputsOnly :
    let s := withSlices 0 4 16 5 0 [0x11, 0x22, 0x00, 0x33]
    let s' := { s with cmd := 9#8, status := 4#8, eA := 1#32, rLen := 7#32, draws := 12, moves := [.reset] }
    SameInputs s s' ∧ s ≠ s' ∧ (∃ t, exec .stuff s = .next t) ∧ ∃ t', exec .stuff s' = .next t' :=
  ⟨⟨rfl, rfl, rfl, rfl, rfl, rfl, rfl, rfl, rfl, rfl, rfl, fun _ _ => rfl⟩,
    fun h => absurd (congrArg State.draws h) (by decide), ⟨_, rfl⟩, ⟨_, rfl⟩⟩

theorem witness_QueriesAreIdempotent :
    (∃ t, exec .devchk State.reset = .next t) ∧ (∃ t, exec .crc16 State.reset = .next t) ∧
    (∃ t, exec .encsize State.reset = .next t) := ⟨⟨_, rfl⟩, ⟨_, rfl⟩, ⟨_, rfl⟩⟩

theorem witness_StepKeepsInv :
    Inv (withMove (.set .cmd 0x08)) ∧ ∃ t, step (withMove (.set .cmd 0x08)) = .next t :=
  ⟨by decide, ⟨_, rfl⟩⟩

theorem witness_StuffFollowsTheBlockRule :
    (0#8 ∉ nz 253 0 ∧ (nz 253 0).length < 254) ∧ (0#8 ∉ ([] : List Byte) ∧ ([] : List Byte).length < 254) ∧
    (0#8 ∉ nz 254 0 ∧ (nz 254 0).length = 254 ∧ [0#8] ≠ []) := by decide +kernel

theorem witness_UnstuffFollowsTheBlockRule :
    [0x11#8].length < (0x03#8).toNat - 1 ∧
    (0x03#8 ≠ 0#8 ∧ [0x11#8, 0#8].length = (0x03#8).toNat - 1 ∧ 0#8 ∈ [0x11#8, 0#8]) ∧
    (0xFF#8 ≠ 0#8 ∧ (nz 254 0).length = (0xFF#8).toNat - 1 ∧ 0#8 ∉ nz 254 0) ∧
    (0x01#8 ≠ 0#8 ∧ ([] : List Byte).length = (0x01#8).toNat - 1 ∧ 0#8 ∉ ([] : List Byte)) := by
  decide +kernel

theorem witness_StripTermDropsOneTrailingZero : (0x01#8 : Byte) ≠ 0#8 := by decide

theorem witness_StuffedLengthIsBounded :
    1 ≤ 1 ∧ nz 254 0 ≠ [] ∧ 0#8 ∉ nz 255 0 ∧ 0#8 ∉ ([] : List Byte) := by decide +kernel

theorem witness_NonCanonicalFormsUnstuff : 0#8 ∉ nz 254 0 ∧ (nz 254 0).length = 254 := by decide +kernel

theorem witness_StuffingLengthLaws :
    ([0x01#8] ≠ [] ∧ unstuff [0x01#8] = some []) ∧
    (nz 253 0 ++ [0#8] ≠ [] ∧ ∀ i, i + 254 ≤ (nz 253 0 ++ [0#8]).length →
      0#8 ∈ ((nz 253 0 ++ [0#8]).drop i).take 254) := by
  refine ⟨by decide, by decide, fun i hi => ?_⟩
  have h0 : i = 0 := by
    have hl : (nz 253 0 ++ [0#8]).length = 254 := by decide +kernel
    omega
  subst h0
  decide +kernel

theorem witness_RawFrameLayout :
    ({ kind := 1, dev := 31, ts := 0, payload := nz 255 0 } : Packet).payload.length ≤ 255 := by decide +kernel

theorem witness_ControlByteFields : (3#8 : Byte).toNat < 4 := by decide

/-- Vectors V38, V62b, V54, V56, V59, V60 and V53, one for each clause. -/
theorem witness_DecodeFrameValidatesInOrder :
    unstuff (stripTerm [0x05#8, 0x11#8, 0x22#8]) = none ∧
    (unstuff (stripTerm [0x02#8, 0x11#8]) = some [0x11#8] ∧ [0x11#8].length < 13) ∧
    (∃ f, unstuff (stripTerm (wireA.set 1 0x02)) = some f ∧ 13 ≤ f.length ∧
      f[0]? = some 2#8 ∧ 2#8 ≠ refChip.version) ∧
    (∃ f, unstuff (stripTerm (wireA.set 12 0x40)) = some f ∧ 13 ≤ f.length ∧
      f[0]? = some refChip.version ∧ fromLe (f.drop (f.length - 2)) = 0xC5CC ∧
      vecEnv.crc16 (f.take (f.length - 2)) ≠ 0xC5CC) ∧
    (∃ f, unstuff (stripTerm (((wireA.set 2 0x03).set 14 0xEB).set 15 0x19)) = some f ∧ 13 ≤ f.length ∧
      f[0]? = some refChip.version ∧ f[1]? = some 3#8 ∧ fromLe (f.drop (f.length - 2)) = 0x19EB ∧
      vecEnv.crc16 (f.take (f.length - 2)) = 0x19EB ∧ (3#8 : Byte).toNat ≠ f.length - 13) ∧
    (∃ f, unstuff (stripTerm (((wireA.set 3 0x40).set 14 0xD5).set 15 0xC0)) = some f ∧ 13 ≤ f.length ∧
      f[0]? = some refChip.version ∧ f[1]? = some 2#8 ∧ f[2]? = some 0x40#8 ∧
      fromLe (f.drop (f.length - 2)) = 0xC0D5 ∧ vecEnv.crc16 (f.take (f.length - 2)) = 0xC0D5 ∧
      (2#8 : Byte).toNat = f.length - 13 ∧
      devAssigned refChip (((0x40#8 : Byte).extractLsb' 2 5).setWidth 8) = false) ∧
    (∃ f, unstuff (stripTerm wireA) = some f ∧ 13 ≤ f.length ∧
      f[0]? = some refChip.version ∧ f[1]? = some 2#8 ∧ f[2]? = some 0x0C#8 ∧
      fromLe (f.drop (f.length - 2)) = 0xC5CC ∧ vecEnv.crc16 (f.take (f.length - 2)) = 0xC5CC ∧
      (2#8 : Byte).toNat = f.length - 13 ∧
      devAssigned refChip (((0x0C#8 : Byte).extractLsb' 2 5).setWidth 8) = true) :=
  ⟨by decide, by decide, ⟨_, rfl, by decide +kernel⟩, ⟨_, rfl, by decide +kernel⟩,
    ⟨_, rfl, by decide +kernel⟩, ⟨_, rfl, by decide +kernel⟩, ⟨_, rfl, by decide +kernel⟩⟩

theorem witness_FrameRoundTrip :
    ValidPacket refChip packetA ∧
    ValidPacket { refChip with devid31 := true } { kind := 1, dev := 31, ts := 0, payload := nz 255 0 } := by
  decide +kernel

theorem witness_DecodedPacketsAreValid : decodeFrame vecEnv refChip wireA = .ok packetA := by
  decide +kernel

theorem witness_VersionGate : (2#8 : Byte) ≠ refChip.version := by decide

/-- V56: one payload bit changed. -/
theorem witness_ChangedBytesFailTheChecksum :
    let body := (frameBody refChip packetA).set 11 0x40
    packetA.payload.length ≤ 255 ∧ body.length = (frameBody refChip packetA).length ∧
    body.head? = some refChip.version ∧
    vecEnv.crc16 body ≠ vecEnv.crc16 (frameBody refChip packetA) := by decide +kernel

theorem witness_WireFrameShape :
    ({ kind := 0, dev := 2, ts := 0, payload := nz 255 0 } : Packet).payload.length ≤ 255 ∧
    ({ kind := 0, dev := 2, ts := 0, payload := nz 240 0 } : Packet).payload.length ≤ 240 := by
  decide +kernel

theorem witness_StreamFollowsItsSteps :
    0#8 ∉ [0x02#8] ∧
    (0#8 ∉ [0x02#8, 0x11#8] ∧
      decodeFrame vecEnv refChip [0x02#8, 0x11#8] = .error (.bufferTooShort 1)) ∧
    (0#8 ∉ wireA.take 16 ∧ decodeFrame vecEnv refChip (wireA.take 16) = .ok packetA ∧
      decodeStream vecEnv refChip wireB 1 = .ok 15 [packetB]) ∧
    decodeStream vecEnv refChip wireBad 1 = .err (.invalidChecksum 0x3E80 0x6041) 14 0 := by
  decide +kernel

theorem witness_StreamDegenerateCalls : 0#8 ∉ [0x02#8, 0x11#8] := by decide

theorem witness_StreamProgress :
    decodeStream vecEnv refChip (wireA ++ wireB) 2 = .ok 32 [packetA, packetB] ∧
    decodeStream vecEnv refChip (wireA ++ wireBad) 4 = .err (.invalidChecksum 0x3E80 0x6041) 31 1 := by
  decide +kernel

theorem witness_StreamDecodesConcatenatedFrames :
    (∀ p ∈ [packetA, packetB], ValidPacket refChip p) ∧ 0#8 ∉ [0x0F#8, 0x01#8] := by decide

theorem witness_StreamSplitsAtACapacity :
    decodeStream vecEnv refChip wireBad 1 = .err (.invalidChecksum 0x3E80 0x6041) 14 0 ∧
    (decodeStream vecEnv refChip (wireA ++ wireB) 1 = .ok 17 [packetA] ∧
      decodeStream vecEnv refChip ((wireA ++ wireB).drop 17) 1 = .ok 15 [packetB]) ∧
    (decodeStream vecEnv refChip (wireA ++ wireBad) 1 = .ok 17 [packetA] ∧
      decodeStream vecEnv refChip ((wireA ++ wireBad).drop 17) 1
        = .err (.invalidChecksum 0x3E80 0x6041) 14 0) := by decide +kernel

theorem witness_StreamGoesOnAcrossDeliveries :
    decodeStream vecEnv refChip (wireA ++ wireB.take 10) 2 = .ok 17 [packetA] ∧
    decodeStream vecEnv refChip ((wireA ++ wireB.take 10).drop 17 ++ wireB.drop 10) 1
      = .ok 15 [packetB] := by decide +kernel

theorem witness_EncodeThenDecode1Loopback :
    let s := withPacket 1 15 7 [0x41, 0x42] 992 32
    s.aOff.toNat + s.aLen.toNat ≤ s.chip.bufCap ∧ devAssigned s.chip s.pkDev = true ∧
    encSize s.pkPlen.toNat ≤ s.aLen.toNat ∧ ∃ t, exec .encode s = .next t :=
  ⟨by decide, by decide, by decide, ⟨_, rfl⟩⟩

end Sys2Proof.Tests
end

/-! PROOFS of the statements about the state (`10_state.md`): what a host write of a register does, how
every command ends, what no step changes, and the state after reset. -/

namespace Sys2Proof.Machine

/-! ### Host writes of registers (R36, R37) -/

/-- What every register reads after a host write of a register. -/
theorem readReg_writeReg (r r' : Reg) (v : Nat) (s : State) :
    readReg (writeReg r v s) r' =
      if r' = r ∧ hostWritable r = true then v % 2 ^ regWidth r else readReg s r' := by
  cases r <;> cases r' <;> rfl

theorem readReg_writeReg_same (r : Reg) (v : Nat) (s : State) :
    readReg (writeReg r v s) r =
      if hostWritable r = true then v % 2 ^ regWidth r else readReg s r := by
  simp [readReg_writeReg]

theorem readReg_writeReg_ne {r r' : Reg} (h : r' ≠ r) (v : Nat) (s : State) :
    readReg (writeReg r v s) r' = readReg s r' := by
  simp [readReg_writeReg, h]

theorem hostMove_set_of_ne {r : Reg} (h : r ≠ .cmd) (v : Nat) (s : State) :
    hostMove (.set r v) s = .next (writeReg r v s) := if_neg h

theorem hostMove_set_cmd (v : Nat) (s : State) : hostMove (.set .cmd v) s = commandWrite v s := rfl

/-! ### How a command ends (R22, R39, R197) -/

/-- How a command that began on `s` may end: `CMD`, the operand registers, the constants and the moves to
come are as they were, and it either succeeded, with the error registers 0, or failed by an error of R186,
with the result registers 0. -/
structure Ended (s t : State) : Prop where
  keeps : KeepsOperands s t
  outcome : (t.status = 0#8 ∧ t.eA = 0#32 ∧ t.eB = 0#32) ∨ ∃ err, FailsBy t err

theorem errorCode_ne_zero (err : CmdError) : errorCode err ≠ 0#8 := by
  cases err <;> simp [errorCode]

/-- `STATUS` tells a failure from a success, so after a failure the results are clear. -/
theorem Ended.results_zero {s t : State} (h : Ended s t) (ht : t.status ≠ 0#8) :
    t.rOff = 0#32 ∧ t.rLen = 0#32 ∧ t.rCnt = 0#32 ∧ t.rVal = 0#32 := by
  obtain ⟨hok, -⟩ | ⟨err, -, -, -, hres⟩ := h.outcome
  · exact absurd hok ht
  · exact hres

theorem Ended.errors_zero {s t : State} (h : Ended s t) (ht : t.status = 0#8) :
    t.eA = 0#32 ∧ t.eB = 0#32 := by
  obtain ⟨-, herr⟩ | ⟨err, hcode, -⟩ := h.outcome
  · exact herr
  · exact absurd (hcode ▸ ht) (errorCode_ne_zero err)

/-- Raising an error on a state whose results are clear ends a command. -/
theorem ended_raise (err : CmdError) {s u : State} (hk : KeepsOperands s u)
    (hres : u.rOff = 0#32 ∧ u.rLen = 0#32 ∧ u.rCnt = 0#32 ∧ u.rVal = 0#32) : Ended s (raise err u) :=
  ⟨hk, .inr ⟨err, rfl, rfl, rfl, hres⟩⟩

theorem ended_rejected (err : CmdError) (s : State) : Ended s (rejected err s) :=
  ended_raise err (by simp [KeepsOperands]) (by simp)

section
variable (e : Env) (s : State)

theorem pload_ended : Ended s (pload e s) := by
  obtain ⟨-, h⟩ | ⟨-, ⟨-, h⟩ | ⟨-, h⟩⟩ := pload_cases e s <;> rw [h]
  · exact ended_rejected _ s
  · exact ended_rejected _ s
  · exact ⟨by simp [KeepsOperands], .inl (by simp)⟩

theorem devchk_ended : Ended s (devchk s) := by
  obtain ⟨-, h⟩ | ⟨-, h⟩ := devchk_cases s <;> rw [h]
  · exact ended_rejected _ s
  · exact ⟨by simp [KeepsOperands], .inl (by simp)⟩

theorem crc16Cmd_ended : Ended s (crc16Cmd e s) := by
  obtain ⟨-, h⟩ | ⟨-, h⟩ := crc16Cmd_cases e s <;> rw [h]
  · exact ended_rejected _ s
  · exact ⟨by simp [KeepsOperands], .inl (by simp)⟩

theorem stuffCmd_ended : Ended s (stuffCmd e s) := by
  obtain ⟨-, h⟩ | ⟨-, ⟨-, h⟩ | ⟨-, ⟨-, h⟩ | ⟨-, ⟨-, h⟩ | ⟨-, h⟩⟩⟩⟩ := stuffCmd_cases e s <;> rw [h]
  · exact ended_rejected _ s
  · exact ended_rejected _ s
  · exact ended_rejected _ s
  · exact ended_rejected _ s
  · exact ⟨by simp [stuffDone, KeepsOperands], .inl (by simp [stuffDone])⟩

theorem unstuffCmd_ended : Ended s (unstuffCmd e s) := by
  obtain ⟨-, h⟩ | ⟨-, ⟨-, h⟩ | ⟨r, -, h⟩⟩ := unstuffCmd_cases e s <;> rw [h]
  · exact ended_rejected _ s
  · exact ended_raise _ (by simp [KeepsOperands]) (by simp)
  · exact ⟨by simp [unstuffDone, KeepsOperands], .inl (by simp [unstuffDone])⟩

theorem encsizeCmd_ended : Ended s (encsizeCmd s) := by
  rw [encsizeCmd_eq]
  exact ⟨by simp [KeepsOperands], .inl (by simp)⟩

theorem encodeCmd_ended : Ended s (encodeCmd e s) := by
  obtain ⟨-, h⟩ | ⟨-, ⟨-, h⟩ | ⟨-, ⟨-, h⟩ | ⟨-, h⟩⟩⟩ := encodeCmd_cases e s <;> rw [h]
  · exact ended_rejected _ s
  · exact ended_rejected _ s
  · exact ended_rejected _ s
  · exact ⟨by simp [encodeDone, KeepsOperands], .inl (by simp [encodeDone])⟩

theorem decode1Cmd_ended : Ended s (decode1Cmd e s) := by
  obtain ⟨-, h⟩ | ⟨-, ⟨err, -, h⟩ | ⟨p, -, h⟩⟩ := decode1Cmd_cases e s <;> rw [h]
  · exact ended_rejected _ s
  · exact ended_raise err (by simp [KeepsOperands]) (by simp)
  · exact ⟨by simp [KeepsOperands], .inl (by simp)⟩

theorem decodesCmd_ended : Ended s (decodesCmd e s) := by
  obtain ⟨-, h⟩ | ⟨-, ⟨-, h⟩ | ⟨-, ⟨err, z, k, -, h⟩ | ⟨cur, pkts, -, h⟩⟩⟩ := decodesCmd_cases e s <;>
    rw [h]
  · exact ended_rejected _ s
  · exact ended_rejected _ s
  · exact ended_raise err (by simp [KeepsOperands]) (by simp)
  · exact ⟨by simp [decodesDone, KeepsOperands], .inl (by simp [decodesDone])⟩

end

/-- Every command ends in the same step, as `Ended` says (R22, R202). -/
theorem exec_ended (i : Instr) (s : State) : ∃ t, exec i s = .next t ∧ Ended s t := by
  cases i with
  | pload => exact ⟨_, exec_pload s, pload_ended _ s⟩
  | devchk => exact ⟨_, exec_devchk s, devchk_ended s⟩
  | crc16 => exact ⟨_, exec_crc16 s, crc16Cmd_ended _ s⟩
  | stuff => exact ⟨_, exec_stuff s, stuffCmd_ended _ s⟩
  | unstuff => exact ⟨_, exec_unstuff s, unstuffCmd_ended _ s⟩
  | encsize => exact ⟨_, exec_encsize s, encsizeCmd_ended s⟩
  | encode => exact ⟨_, exec_encode s, encodeCmd_ended _ s⟩
  | decode1 => exact ⟨_, exec_decode1 s, decode1Cmd_ended _ s⟩
  | decodes => exact ⟨_, exec_decodes s, decodesCmd_ended _ s⟩

theorem ended_of_exec {i : Instr} {s t : State} (h : exec i s = .next t) : Ended s t := by
  obtain ⟨u, hu, hended⟩ := exec_ended i s
  cases h.symm.trans hu
  exact hended

/-- A write of `CMD` ends as a command on the state that holds the stored byte, reserved codes included
(R25, R86). -/
theorem commandWrite_ended (v : Nat) (s : State) :
    ∃ t, commandWrite v s = .next t ∧ Ended (writeReg .cmd v s) t := by
  unfold commandWrite
  cases decode (BitVec.ofNat 8 v) with
  | ok i => exact exec_ended i _
  | error _ => exact ⟨_, rfl, ended_rejected _ _⟩

/-! ### Result clearing comes first (R39) -/

@[simp] theorem clearResults_clearResults (s : State) : clearResults (clearResults s) = clearResults s := rfl

theorem clearResults_succeeds (s : State) : Succeeds (clearResults s) 0 0 0 0 := by simp [Succeeds]

theorem clearResults_keepsAllElse (s : State) : KeepsAllElse s (clearResults s) := by
  simp [KeepsAllElse, KeepsOperands, KeepsPacket, KeepsBuf, KeepsOut]

/-- No command sees what an earlier one left in the result and error registers: its first action on the
cleared state answers that state again. -/
theorem exec_clearResults (i : Instr) (s : State) : exec i (clearResults s) = exec i s := by
  cases i <;> rfl

/-! ### The constants (R27, R35) -/

theorem hostMove_chip {m : HostMove} {s t : State} (h : hostMove m s = .next t) : t.chip = s.chip := by
  cases m with
  | set r v =>
    by_cases hr : r = .cmd
    · subst hr
      obtain ⟨u, hu, hended⟩ := commandWrite_ended v s
      cases h.symm.trans hu
      obtain ⟨-, -, -, -, -, -, hchip, -⟩ := hended.keeps
      simpa using hchip
    · cases h.symm.trans (hostMove_set_of_ne hr v s)
      simp
  | _ => cases h; rfl

theorem step_chip {s t : State} (h : step s = .next t) : t.chip = s.chip := by
  unfold step at h
  split at h
  · cases h; rfl
  · exact (hostMove_chip h :)

/-! ### The state after reset (R38) -/

theorem readReg_afterReset (e : Env) (c : Chip) (k : Nat) (r : Reg) :
    readReg (State.afterReset e c k) r = if r = .version then c.version.toNat else 0 := by
  cases r <;> rfl

theorem pkPacket_afterReset (e : Env) (c : Chip) (k : Nat) :
    pkPacket (State.afterReset e c k) = { kind := 0, dev := 0, ts := 0, payload := [] } := by
  simp [pkPacket, pkPayload, State.afterReset]

/-- `ENCODE` accepts the packet that the packet register holds after reset. -/
theorem validPacket_afterReset (e : Env) (c : Chip) (k : Nat) :
    ValidPacket c (pkPacket (State.afterReset e c k)) := by
  simp [pkPacket_afterReset, ValidPacket, devAssigned_iff]

/-! ### The statements -/

/-- Settles O12: no move of the host changes the constants, a write of `CMD` included, since it ends as
`Ended` says. -/
theorem versionAlwaysReadsTheConstant : Obligations.VersionAlwaysReadsTheConstant :=
  ⟨fun _ => rfl, fun v s => hostMove_set_of_ne (by decide) v s, fun _ _ => step_chip⟩

/-- Settles O25: every command reads the cleared state only, and ends as `Ended` says. -/
theorem resultClearingComesFirst : Obligations.ResultClearingComesFirst := by
  refine ⟨fun s => ⟨clearResults_succeeds s, clearResults_keepsAllElse s⟩, exec_clearResults,
    fun i s t h => ?_⟩
  exact ⟨(ended_of_exec h).results_zero, (ended_of_exec h).errors_zero⟩

/-- Settles O6, by what a register reads after a write, and by how a write of `CMD` ends. -/
theorem hostRegisterWriteKeepsLowBits : Obligations.HostRegisterWriteKeepsLowBits := by
  refine ⟨fun r v s hr => ⟨writeReg r v s, hostMove_set_of_ne hr v s, readReg_writeReg_same r v s,
    fun r' h => readReg_writeReg_ne h v s, by simp⟩, fun v s => ?_⟩
  obtain ⟨t, ht, hended⟩ := commandWrite_ended v s
  obtain ⟨hcmd, -⟩ := hended.keeps
  have hread : readReg t .cmd = readReg (writeReg .cmd v s) .cmd := congrArg BitVec.toNat hcmd
  exact ⟨t, ht, hread.trans (readReg_writeReg_same .cmd v s)⟩

/-- Settles O10, which holds after every reset event of every machine. -/
theorem resetStateIsAsSpecified : Obligations.ResetStateIsAsSpecified :=
  ⟨readReg_afterReset _ _ _, pkPacket_afterReset _ _ _, validPacket_afterReset _ _ _⟩

end Sys2Proof.Machine

/-! PROOFS of the statement about memory (`20_memory.md`): how long the bytes are that a command writes to
`BUF`, and that each command keeps every byte outside its destination. -/

namespace Sys2Proof.Machine

/-! ### How long the written bytes are (R114, R116, R117, R130) -/

/-- A short run and its zero take as many bytes stuffed as unstuffed, beside what follows. -/
theorem stuffMax_add_run (k n : Nat) : k + 1 + stuffMax n ≤ stuffMax (k + (n + 1)) := by
  simp only [stuffMax]
  split <;> split <;> omega

/-- A full block takes one byte more stuffed than unstuffed, beside what follows. -/
theorem stuffMax_add_block {n : Nat} (hn : 0 < n) :
    blockMax + 1 + stuffMax n ≤ stuffMax (blockMax + n) := by
  simp only [stuffMax, blockMax]
  split <;> split <;> omega

/-- Stuffing adds at most one byte for each block begun. -/
theorem stuff_length_le (raw : List Byte) : (stuff raw).length ≤ stuffMax raw.length := by
  induction raw using block_induction with
  | run run h0 hl =>
    rw [stuff_run h0 hl, List.length_cons, stuffMax]
    split <;> omega
  | run_zero run after h0 hl ih =>
    have := stuffMax_add_run run.length after.length
    rw [stuff_run_zero h0 hl]
    simp only [List.length_cons, List.length_append]
    omega
  | full run after h0 hl ih =>
    rw [stuff_full h0 hl]
    by_cases hne : after = []
    · simp [hne, hl, stuffMax]
    · have := stuffMax_add_block (List.length_pos_iff.mpr hne)
      simp only [hne, if_false, List.length_cons, List.length_append, hl]
      omega

theorem unstuffLoop_length_le {fuel : Nat} {s out : List Byte} (h : unstuffLoop fuel s = some out) :
    out.length ≤ s.length := by
  induction fuel generalizing s out with
  | zero => cases s <;> simp_all [unstuffLoop]
  | succ fuel ih =>
    cases s with
    | nil => simp_all [unstuffLoop]
    | cons c rest =>
      simp only [unstuffLoop] at h
      split at h
      · cases h
      split at h
      · cases h
      split at h
      · cases h
      split at h
      · cases h
      next tail htail =>
        cases h
        have hle := ih htail
        simp only [List.length_append, List.length_take, List.length_drop, List.length_cons] at hle ⊢
        split <;> simp <;> omega

/-- Unstuffing makes no bytes longer. -/
theorem unstuff_length_le {s out : List Byte} (h : unstuff s = some out) : out.length ≤ s.length :=
  unstuffLoop_length_le h

theorem stripTerm_length_le (s : List Byte) : (stripTerm s).length ≤ s.length := by
  rw [stripTerm]
  split <;> simp

theorem frameRaw_length (e : Env) (c : Chip) (p : Packet) :
    (frameRaw e c p).length = overhead + p.payload.length := by
  simp [frameRaw, frameBody, le16, le64, overhead]
  omega

/-- The raw frame of a packet and its wire frame fit into the slice `ENCODE` asks for (R131). -/
theorem frameRaw_wireFrame_length_le (e : Env) (c : Chip) (p : Packet) :
    (frameRaw e c p).length + (wireFrame e c p).length ≤ encSize p.payload.length := by
  have := stuff_length_le (frameRaw e c p)
  simp only [wireFrame, encSize, List.length_append, List.length_singleton, frameRaw_length] at this ⊢
  omega

/-! ### What an operation keeps of `BUF` -/

theorem keepsBufOutside_of_keepsBuf {s t : State} (h : KeepsBuf s t) (off n : Nat) :
    KeepsBufOutside s t off n := fun a _ => h a

theorem rejected_keepsBuf (err : CmdError) (s : State) : KeepsBuf s (rejected err s) := fun _ => rfl

theorem rejected_keepsBufOutside (err : CmdError) (s : State) (off n : Nat) :
    KeepsBufOutside s (rejected err s) off n := keepsBufOutside_of_keepsBuf (rejected_keepsBuf err s) off n

/-- A slice that is written from its start and is `ANY` after that: no byte outside it changes. -/
theorem readBuf_fill_outside (e : Env) (s : State) {off n a : Nat} {bs : List Byte} (hbs : bs.length ≤ n)
    (ha : a < off ∨ off + n ≤ a) :
    readBuf e (scramble e (off + bs.length) (n - bs.length) (writeBytes off bs s)) a = readBuf e s a := by
  rw [readBuf_scramble_outside e _ (by omega), readBuf_writeBytes_outside e s (by omega)]

/-! ### What a command keeps of `BUF` (R66) -/

section
variable (s : State)

theorem pload_keepsBuf (e : Env) : KeepsBuf s (pload e s) := by
  obtain ⟨-, h⟩ | ⟨-, ⟨-, h⟩ | ⟨-, h⟩⟩ := pload_cases e s <;> rw [h]
  · exact rejected_keepsBuf _ s
  · exact rejected_keepsBuf _ s
  · simp [KeepsBuf]

theorem devchk_keepsBuf : KeepsBuf s (devchk s) := by
  obtain ⟨-, h⟩ | ⟨-, h⟩ := devchk_cases s <;> rw [h]
  · exact rejected_keepsBuf _ s
  · simp [KeepsBuf]

theorem crc16Cmd_keepsBuf (e : Env) : KeepsBuf s (crc16Cmd e s) := by
  obtain ⟨-, h⟩ | ⟨-, h⟩ := crc16Cmd_cases e s <;> rw [h]
  · exact rejected_keepsBuf _ s
  · simp [KeepsBuf]

theorem encsizeCmd_keepsBuf : KeepsBuf s (encsizeCmd s) := by
  simp [encsizeCmd_eq, KeepsBuf]

variable {s}

theorem stuffDone_keepsBufOutside (h : stuffMax s.aLen.toNat ≤ s.bLen.toNat) :
    KeepsBufOutside s (stuffDone Config.env s) s.bOff.toNat s.bLen.toNat := by
  intro a ha
  have hlen := stuff_length_le (sliceA Config.env s)
  rw [sliceA_length] at hlen
  rw [stuffDone, readBuf_setSlice, readBuf_fill_outside _ _ (hlen.trans h) ha, readBuf_clearResults]

theorem unstuffDone_keepsBufOutside {r : List Byte}
    (h : unstuff (stripTerm (sliceA Config.env s)) = some r) :
    KeepsBufOutside s (unstuffDone Config.env s r) s.aOff.toNat s.aLen.toNat := by
  intro a ha
  have hlen : r.length ≤ s.aLen.toNat :=
    calc r.length ≤ (stripTerm (sliceA Config.env s)).length := unstuff_length_le h
      _ ≤ (sliceA Config.env s).length := stripTerm_length_le _
      _ = s.aLen.toNat := sliceA_length ..
  rw [unstuffDone, readBuf_setSlice, readBuf_fill_outside _ _ hlen ha, readBuf_clearResults]

theorem encodeDone_keepsBufOutside (h : encSize s.pkPlen.toNat ≤ s.aLen.toNat) :
    KeepsBufOutside s (encodeDone Config.env s) s.aOff.toNat s.aLen.toNat := by
  intro a ha
  have hlen := frameRaw_wireFrame_length_le Config.env s.chip (pkPacket s)
  have hpay : (pkPacket s).payload.length = s.pkPlen.toNat := pkPayload_length s
  rw [hpay] at hlen
  rw [encodeDone, readBuf_setSlice, Nat.sub_add_eq, readBuf_fill_outside _ _ (by omega) (by omega),
    readBuf_writeBytes_outside _ _ (by omega), readBuf_clearResults]

theorem decodesDone_keepsBufOutside (cur : Nat) (pkts : List Packet) :
    KeepsBufOutside s (decodesDone Config.env s cur pkts) s.aOff.toNat cur := by
  intro a ha
  rw [decodesDone, readBuf_setCnt, readBuf_setSlice, readBuf_scramble_outside _ _ ha,
    readBuf_writePackets, readBuf_clearResults]

theorem decodesFailed_keepsBufOutside (err : CmdError) (z : Nat) :
    KeepsBufOutside s (decodesFailed Config.env s err z) s.aOff.toNat z := by
  intro a ha
  rw [decodesFailed, readBuf_raise, readBuf_scrambleOut, readBuf_scramble_outside _ _ ha,
    readBuf_clearResults]

variable (s)

theorem stuffCmd_keepsBufOutside :
    KeepsBufOutside s (stuffCmd Config.env s) s.bOff.toNat s.bLen.toNat := by
  obtain ⟨-, h⟩ | ⟨-, ⟨-, h⟩ | ⟨-, ⟨-, h⟩ | ⟨-, ⟨-, h⟩ | ⟨hfits, h⟩⟩⟩⟩ := stuffCmd_cases Config.env s <;>
    rw [h]
  · exact rejected_keepsBufOutside _ s _ _
  · exact rejected_keepsBufOutside _ s _ _
  · exact rejected_keepsBufOutside _ s _ _
  · exact rejected_keepsBufOutside _ s _ _
  · exact stuffDone_keepsBufOutside hfits

theorem unstuffCmd_keepsBufOutside :
    KeepsBufOutside s (unstuffCmd Config.env s) s.aOff.toNat s.aLen.toNat := by
  obtain ⟨-, h⟩ | ⟨-, ⟨-, h⟩ | ⟨r, hr, h⟩⟩ := unstuffCmd_cases Config.env s <;> rw [h]
  · exact rejected_keepsBufOutside _ s _ _
  · exact fun a ha => readBuf_scramble_outside _ (clearResults s) ha
  · exact unstuffDone_keepsBufOutside hr

theorem encodeCmd_keepsBufOutside :
    KeepsBufOutside s (encodeCmd Config.env s) s.aOff.toNat s.aLen.toNat := by
  obtain ⟨-, h⟩ | ⟨-, ⟨-, h⟩ | ⟨-, ⟨-, h⟩ | ⟨hfits, h⟩⟩⟩ := encodeCmd_cases Config.env s <;> rw [h]
  · exact rejected_keepsBufOutside _ s _ _
  · exact rejected_keepsBufOutside _ s _ _
  · exact rejected_keepsBufOutside _ s _ _
  · exact encodeDone_keepsBufOutside hfits

theorem decode1Cmd_keepsBufOutside :
    KeepsBufOutside s (decode1Cmd Config.env s) s.aOff.toNat s.aLen.toNat := by
  obtain ⟨-, h⟩ | ⟨-, ⟨err, -, h⟩ | ⟨p, -, h⟩⟩ := decode1Cmd_cases Config.env s <;> rw [h]
  · exact rejected_keepsBufOutside _ s _ _
  · exact fun a ha => readBuf_scramble_outside _ (clearResults s) ha
  · exact fun a ha => readBuf_scramble_outside _ (clearResults s) ha

theorem writeRange_decodes_ok {cur : Nat} {pkts : List Packet}
    (h : decodeStream Config.env s.chip (sliceA Config.env s) s.outCap.toNat = .ok cur pkts) :
    writeRange .decodes s = (s.aOff.toNat, cur) := by simp only [writeRange, h]

theorem writeRange_decodes_err {err : CmdError} {z k : Nat}
    (h : decodeStream Config.env s.chip (sliceA Config.env s) s.outCap.toNat = .err err z k) :
    writeRange .decodes s = (s.aOff.toNat, z) := by simp only [writeRange, h]

theorem decodesCmd_keepsBufOutside :
    KeepsBufOutside s (decodesCmd Config.env s) (writeRange .decodes s).1 (writeRange .decodes s).2 := by
  obtain ⟨-, h⟩ | ⟨-, ⟨-, h⟩ | ⟨-, ⟨err, z, k, hdec, h⟩ | ⟨cur, pkts, hdec, h⟩⟩⟩ :=
    decodesCmd_cases Config.env s <;> rw [h]
  · exact rejected_keepsBufOutside _ s _ _
  · exact rejected_keepsBufOutside _ s _ _
  · rw [writeRange_decodes_err s hdec]
    exact decodesFailed_keepsBufOutside err z
  · rw [writeRange_decodes_ok s hdec]
    exact decodesDone_keepsBufOutside cur pkts

end

/-! ### The statement -/

/-- Settles O30, command by command: what a command writes fits into its destination. -/
theorem writesStayInTheDestination : Obligations.WritesStayInTheDestination := by
  intro i s t h
  cases i with
  | pload => cases h; exact keepsBufOutside_of_keepsBuf (pload_keepsBuf s _) _ _
  | devchk => cases h; exact keepsBufOutside_of_keepsBuf (devchk_keepsBuf s) _ _
  | crc16 => cases h; exact keepsBufOutside_of_keepsBuf (crc16Cmd_keepsBuf s _) _ _
  | stuff => cases h; exact stuffCmd_keepsBufOutside s
  | unstuff => cases h; exact unstuffCmd_keepsBufOutside s
  | encsize => cases h; exact keepsBufOutside_of_keepsBuf (encsizeCmd_keepsBuf s) _ _
  | encode => cases h; exact encodeCmd_keepsBufOutside s
  | decode1 => cases h; exact decode1Cmd_keepsBufOutside s
  | decodes => cases h; exact decodesCmd_keepsBufOutside s

end Sys2Proof.Machine

/-! PROOFS of the statements about encodings (`30_encoding.md`): which bytes decode to a command, what a
reserved code written to `CMD` does, and the fields of the control byte. -/

namespace Sys2Proof.Machine

/-! ### The command word (R85, R86) -/

theorem decode_encode (i : Instr) : decode (encode i) = .ok i := by
  cases i <;> rfl

theorem decode_of_reserved {c : Byte} (h : codeAssigned c = false) :
    decode c = .error (.reservedCode c) := by
  have hout : c.toNat = 0 ∨ 10 ≤ c.toNat := by
    simp [codeAssigned] at h
    omega
  unfold decode
  split
  case h_10 => rfl
  all_goals omega

theorem codeAssigned_ofNat_eq_false {v : Nat} (h : v % 256 = 0 ∨ 0x0A ≤ v % 256) :
    codeAssigned (BitVec.ofNat 8 v) = false := by
  simp [codeAssigned]
  omega

theorem writeReg_cmd (v : Nat) (s : State) :
    writeReg .cmd v s = { s with cmd := BitVec.ofNat 8 v } := rfl

/-- The byte is stored in `CMD`, and the write ends as a command that raises `OperandError` 1 (R25, R86). -/
theorem commandWrite_of_reserved {v : Nat} (h : codeAssigned (BitVec.ofNat 8 v) = false) (s : State) :
    commandWrite v s = .next (rejected (.operandError 1) (writeReg .cmd v s)) := by
  rw [commandWrite, decode_of_reserved h, reservedCommand]

theorem rejected_operandError_failsWith {n : Nat} (hn : n < 2 ^ 32) (s : State) :
    FailsWith (rejected (.operandError n) s) 15 n 0 := by
  simpa [FailsWith, errorCode, errorInfoA, errorInfoB] using hn

/-! ### The control byte (R74) -/

theorem controlByte_toNat (k : BitVec 1) (d : BitVec 5) :
    (controlByte k d).toNat = k.toNat * 128 + d.toNat * 4 := by
  rw [controlByte, BitVec.toNat_append, BitVec.toNat_append, ← Nat.shiftLeft_add_eq_or_of_lt d.isLt]
  simp [Nat.shiftLeft_eq]
  omega

/-- Reserved bits that are not 0 stand below the two fields and change neither (R74, R87). -/
theorem controlByte_or_low (k : BitVec 1) (d : BitVec 5) {low : Byte} (h : low.toNat < 4) :
    controlByte k d ||| low = k ++ d ++ low.setWidth 2 := by
  have hlow : low = 0#6 ++ low.setWidth 2 := by
    refine BitVec.eq_of_toNat_eq (.trans ?_ (BitVec.toNat_append 0#6 (low.setWidth 2)).symm)
    simpa using (Nat.mod_eq_of_lt h).symm
  calc controlByte k d ||| low
      = (k ++ d) ++ 0#2 ||| 0#6 ++ low.setWidth 2 := congrArg (controlByte k d ||| ·) hlow
    _ = ((k ++ d) ||| 0#6) ++ (0#2 ||| low.setWidth 2) := BitVec.or_append
    _ = k ++ d ++ low.setWidth 2 := by simp

theorem controlKind_append (k : BitVec 1) (d : BitVec 5) (r : BitVec 2) :
    controlKind (k ++ d ++ r) = k := by
  rw [controlKind, BitVec.extractLsb'_append_eq_of_le (by decide)]
  exact BitVec.extractLsb'_append_eq_left

theorem controlDev_append (k : BitVec 1) (d : BitVec 5) (r : BitVec 2) :
    controlDev (k ++ d ++ r) = d := by
  rw [controlDev, BitVec.extractLsb'_append_eq_of_le le_rfl]
  exact BitVec.extractLsb'_append_eq_right

/-! ### The statements -/

/-- Settles O1: the nine bytes are the codes of the nine commands, and a command's code decodes to it. -/
theorem commandCodesDecode : Obligations.CommandCodesDecode :=
  ⟨decode_encode .pload, decode_encode .devchk, decode_encode .crc16, decode_encode .stuff,
    decode_encode .unstuff, decode_encode .encsize, decode_encode .encode, decode_encode .decode1,
    decode_encode .decodes⟩

/-- Settles O3: the write is a rejected command on the state that holds the code in `CMD`. -/
theorem reservedCodeIsOperandError : Obligations.ReservedCodeIsOperandError := by
  intro v s hv
  refine ⟨_, commandWrite_of_reserved (codeAssigned_ofNat_eq_false hv) s,
    rejected_operandError_failsWith (by decide) _, ?_⟩
  simp [writeReg_cmd, KeepsPacket]

/-- Settles O44, by the byte's value and by its three fields side by side. -/
theorem controlByteFields : Obligations.ControlByteFields := by
  intro k d low hlow
  rw [controlByte_or_low k d hlow]
  exact ⟨controlByte_toNat k d, controlKind_append k d _, controlDev_append k d _⟩

end Sys2Proof.Machine

/-! PROOFS of the statements about the payload container and the identity fields
(`40_payload_identity.md`): what a rejected command leaves, and how `PLOAD` and `DEVCHK` end. -/

namespace Sys2Proof.Machine

/-! ### What a rejected command leaves (R197) -/

theorem rejected_keepsAllElse (err : CmdError) (s : State) : KeepsAllElse s (rejected err s) := by
  simp [KeepsAllElse, KeepsOperands, KeepsPacket, KeepsBuf, KeepsOut]

theorem rejected_failsWith {err : CmdError} {code a b : Nat} (hcode : (errorCode err).toNat = code)
    (ha : (errorInfoA err).toNat = a) (hb : (errorInfoB err).toNat = b) (s : State) :
    FailsWith (rejected err s) code a b := by
  simp [FailsWith, hcode, ha, hb]

theorem errorInfoA_payloadTooLong_toNat {n : Nat} (hn : n < 2 ^ 32) :
    (errorInfoA (.payloadTooLong n)).toNat = n := by
  rw [errorInfoA, BitVec.toNat_ofNat, Nat.mod_eq_of_lt hn]

theorem errorInfoA_invalidId_toNat (d : Byte) : (errorInfoA (.invalidId d)).toNat = d.toNat :=
  BitVec.toNat_setWidth_of_le (by decide)

/-! ### `PLOAD` (R100) -/

section
variable {e : Env} {s : State}

theorem pload_of_outside (hout : s.chip.bufCap < s.aOff.toNat + s.aLen.toNat) :
    pload e s = rejected (.operandError 2) s := by
  obtain ⟨-, h⟩ | ⟨hin, -⟩ := pload_cases e s
  · exact h
  · omega

theorem pload_of_tooLong (hin : s.aOff.toNat + s.aLen.toNat ≤ s.chip.bufCap)
    (hlong : 255 < s.aLen.toNat) : pload e s = rejected (.payloadTooLong s.aLen.toNat) s := by
  obtain ⟨hout, -⟩ | ⟨-, ⟨-, h⟩ | ⟨hfits, -⟩⟩ := pload_cases e s
  · omega
  · exact h
  · omega

theorem pload_of_fits (hin : s.aOff.toNat + s.aLen.toNat ≤ s.chip.bufCap)
    (hfits : s.aLen.toNat ≤ 255) :
    pload e s = loadPayload e (sliceA e s) (clearResults s) := by
  obtain ⟨hout, -⟩ | ⟨-, ⟨hlong, -⟩ | ⟨-, h⟩⟩ := pload_cases e s
  · omega
  · omega
  · exact h

end

/-! ### `DEVCHK` (R101) -/

theorem devchk_of_assigned {s : State} (h : devAssigned s.chip s.pkDev = true) :
    devchk s = clearResults s := by
  simpa [h] using devchk_cases s

theorem devchk_of_unassigned {s : State} (h : devAssigned s.chip s.pkDev = false) :
    devchk s = rejected (.invalidId s.pkDev) s := by
  simpa [h] using devchk_cases s

/-! ### The statements -/

/-- Settles O13: a slice that fits is loaded on cleared results, and its bytes are read back as the payload;
every other slice is rejected. -/
theorem ploadLoadsThePayload : Obligations.PloadLoadsThePayload := by
  refine ⟨decode_encode .pload, fun s => ⟨fun hin hfits => ?_, fun hout => ?_, fun hin hlong => ?_⟩⟩
  · have hlen : (sliceA Config.env s).length ≤ 255 := by rwa [sliceA_length]
    have hpayload := pkPayload_loadPayload Config.env (clearResults s) hlen
    have hplen : (BitVec.ofNat 8 (sliceA Config.env s).length).toNat = s.aLen.toNat := by
      rw [sliceA_length, BitVec.toNat_ofNat, Nat.mod_eq_of_lt (by omega)]
    refine ⟨_, (exec_pload s).trans (congrArg _ (pload_of_fits hin hfits)), clearResults_succeeds s,
      hplen, hpayload, ?_⟩
    simp [KeepsOperands, KeepsBuf, KeepsOut]
  · exact ⟨_, (exec_pload s).trans (congrArg _ (pload_of_outside hout)),
      rejected_operandError_failsWith (by decide) s, rejected_keepsAllElse _ s⟩
  · exact ⟨_, (exec_pload s).trans (congrArg _ (pload_of_tooLong hin hlong)),
      rejected_failsWith rfl (errorInfoA_payloadTooLong_toNat s.aLen.isLt) rfl s,
      rejected_keepsAllElse _ s⟩

/-- Settles O14: `DEVCHK` clears the results on the codes `DEVID_ASSIGNED` accepts, which are the ones the
statement lists, and rejects every other. -/
theorem devchkJudgesTheDeviceCode : Obligations.DevchkJudgesTheDeviceCode := by
  refine ⟨decode_encode .devchk, fun s => ?_⟩
  rw [← devAssigned_iff, Bool.not_eq_true]
  refine ⟨fun h => ?_, fun h => ?_⟩
  · exact ⟨_, (exec_devchk s).trans (congrArg _ (devchk_of_assigned h)), clearResults_succeeds s,
      clearResults_keepsAllElse s⟩
  · exact ⟨_, (exec_devchk s).trans (congrArg _ (devchk_of_unassigned h)),
      rejected_failsWith rfl (errorInfoA_invalidId_toNat s.pkDev) rfl s, rejected_keepsAllElse _ s⟩

end Sys2Proof.Machine

/-! PROOFS of the statements about the primitives (`41_primitives.md`): the block rules of `stuff` and
`unstuff`, how long stuffed data is, and how `CRC16`, `STUFF` and `UNSTUFF` end. -/

namespace Sys2Proof.Machine

/-! ### Stuffed data (R113) -/

theorem shortBlockCode_ne_zero {n : Nat} (h : n < blockMax) : BitVec.ofNat 8 (n + 1) ≠ 0#8 := by
  intro h0
  have := congrArg BitVec.toNat h0
  simp only [BitVec.toNat_ofNat, blockMax] at this h
  omega

theorem zero_notMem_stuff (raw : List Byte) : 0#8 ∉ stuff raw := by
  induction raw using block_induction with
  | run run h0 hl =>
    rw [stuff_run h0 hl]
    simp [h0, (shortBlockCode_ne_zero hl).symm]
  | run_zero run after h0 hl ih =>
    rw [stuff_run_zero h0 hl]
    simp [h0, ih, (shortBlockCode_ne_zero hl).symm]
  | full run after h0 hl ih =>
    rw [stuff_full h0 hl]
    split <;> simp [h0, ih]

theorem stuff_full_end {run : List Byte} (h0 : 0#8 ∉ run) (hl : run.length = blockMax) :
    stuff run = 0xFF#8 :: run := by
  simpa using stuff_full (after := []) h0 hl

theorem stuff_full_more {run after : List Byte} (h0 : 0#8 ∉ run) (hl : run.length = blockMax)
    (ha : after ≠ []) : stuff (run ++ after) = 0xFF#8 :: (run ++ stuff after) := by
  rw [stuff_full h0 hl, if_neg ha]

/-! ### How long stuffed data is (R114) -/

theorem stuffMax_of_pos {n : Nat} (h : 1 ≤ n) : stuffMax n = n + (n + 253) / 254 :=
  if_neg (by omega)

/-- Fewer than 254 bytes cost one code byte. -/
theorem stuffMax_of_lt {n : Nat} (h : n < blockMax) : stuffMax n = n + 1 := by
  simp only [stuffMax, blockMax] at h ⊢
  split <;> omega

theorem stuffMax_block_add {n : Nat} (hn : 0 < n) :
    stuffMax (blockMax + n) = blockMax + 1 + stuffMax n := by
  rw [stuffMax_of_pos hn, stuffMax_of_pos (by omega), blockMax]
  omega

/-- Stuffing adds at least one byte: the code of the last block, which implies no zero. -/
theorem stuff_length_ge (raw : List Byte) : raw.length + 1 ≤ (stuff raw).length := by
  induction raw using block_induction with
  | run run h0 hl => simp [stuff_run h0 hl]
  | run_zero run after h0 hl ih =>
    rw [stuff_run_zero h0 hl]
    simp only [List.length_cons, List.length_append]
    omega
  | full run after h0 hl ih =>
    by_cases hne : after = []
    · simp [hne, stuff_full_end h0 hl]
    · rw [stuff_full_more h0 hl hne]
      simp only [List.length_cons, List.length_append]
      omega

/-- Data without a zero is full blocks and a rest, so every 254 bytes cost a code byte. -/
theorem stuff_length_of_zero_notMem {raw : List Byte} (h : 0#8 ∉ raw) :
    (stuff raw).length = stuffMax raw.length := by
  induction raw using block_induction with
  | run run h0 hl => simp [stuff_run h0 hl, stuffMax_of_lt hl]
  | run_zero run after h0 hl ih => simp at h
  | full run after h0 hl ih =>
    by_cases hne : after = []
    · simp [hne, stuff_full_end h0 hl, hl, stuffMax]
    · have hafter : 0#8 ∉ after := fun hmem => h (List.mem_append_right _ hmem)
      rw [stuff_full_more h0 hl hne, List.length_append, hl,
        stuffMax_block_add (List.length_pos_iff.mpr hne), ← ih hafter]
      simp only [List.length_cons, List.length_append, hl]
      omega

/-! ### `unstuff` and `strip_term` (R116, R117) -/

theorem unstuff_zero_code (rest : List Byte) : unstuff (0#8 :: rest) = none := by
  rw [unstuff, List.length_cons, unstuffLoop, if_pos rfl]

theorem unstuff_past_end {c : Byte} {rest : List Byte} (h : rest.length < c.toNat - 1) :
    unstuff (c :: rest) = none := by
  rw [unstuff, List.length_cons, unstuffLoop, if_pos h, ite_self]

theorem stripTerm_concat (s : List Byte) (b : Byte) :
    stripTerm (s ++ [b]) = if b = 0#8 then s else s ++ [b] := by
  simp [stripTerm]

/-! ### How a rejected command ends (R197) -/

/-- A command that is rejected ends with its error and changes nothing else. -/
theorem exec_ends_of_rejected {i : Instr} {s u : State} {err : CmdError} {code a b : Nat}
    (hexec : exec i s = .next u) (hu : u = rejected err s) (hcode : (errorCode err).toNat = code)
    (ha : (errorInfoA err).toNat = a) (hb : (errorInfoB err).toNat = b) :
    ∃ t, exec i s = .next t ∧ FailsWith t code a b ∧ KeepsAllElse s t := by
  subst hu
  exact ⟨_, hexec, rejected_failsWith hcode ha hb s, rejected_keepsAllElse err s⟩

/-! ### `CRC16` (R111) -/

theorem setVal_succeeds {v : Nat} (hv : v < 2 ^ 32) (s : State) :
    Succeeds (setVal v (clearResults s)) 0 0 0 v := by
  simpa [Succeeds] using hv

theorem setVal_keepsAllElse (v : Nat) (s : State) : KeepsAllElse s (setVal v (clearResults s)) := by
  simp [KeepsAllElse, KeepsOperands, KeepsPacket, KeepsBuf, KeepsOut]

section
variable {e : Env} {s : State}

theorem crc16Cmd_of_outside (hout : s.chip.bufCap < s.aOff.toNat + s.aLen.toNat) :
    crc16Cmd e s = rejected (.operandError 2) s := by
  simpa [hout, hout.not_ge] using crc16Cmd_cases e s

theorem crc16Cmd_of_inside (hin : s.aOff.toNat + s.aLen.toNat ≤ s.chip.bufCap) :
    crc16Cmd e s = setVal (e.crc16 (sliceA e s)).toNat (clearResults s) := by
  simpa [hin, hin.not_gt] using crc16Cmd_cases e s

end

/-! ### A destination slice that is filled (R115, R118) -/

/-- On cleared results: the bytes at the start of a destination slice of `n` bytes, `ANY` in the rest of it,
and the range of the bytes returned. -/
def sliceFilled (e : Env) (off n : Nat) (bs : List Byte) (s : State) : State :=
  setSlice off bs.length <| scramble e (off + bs.length) (n - bs.length) <|
    writeBytes off bs (clearResults s)

section
variable (e : Env) (s : State) (off n : Nat) (bs : List Byte)

theorem stuffDone_eq_sliceFilled :
    stuffDone e s = sliceFilled e s.bOff.toNat s.bLen.toNat (stuff (sliceA e s)) s := rfl

theorem unstuffDone_eq_sliceFilled :
    unstuffDone e s bs = sliceFilled e s.aOff.toNat s.aLen.toNat bs s := rfl

theorem sliceFilled_succeeds (hoff : off < 2 ^ 32) (hbs : bs.length < 2 ^ 32) :
    Succeeds (sliceFilled e off n bs s) off bs.length 0 0 := by
  simpa [Succeeds, sliceFilled] using And.intro hoff hbs

theorem readBytes_sliceFilled : readBytes e (sliceFilled e off n bs s) off bs.length = bs := by
  rw [sliceFilled, readBytes_setSlice, readBytes_scramble_outside _ _ (.inl le_rfl),
    readBytes_writeBytes]

theorem sliceFilled_keepsPacket : KeepsPacket s (sliceFilled e off n bs s) := by
  simp [KeepsPacket, sliceFilled]

theorem sliceFilled_keepsOut : KeepsOut s (sliceFilled e off n bs s) := by
  simp [KeepsOut, sliceFilled]

end

/-! ### `STUFF` (R115) -/

section
variable {e : Env} {s t : State}

theorem stuffCmd_of_aOutside (ha : s.chip.bufCap < s.aOff.toNat + s.aLen.toNat) :
    stuffCmd e s = rejected (.operandError 2) s := by
  simpa [ha, ha.not_ge] using stuffCmd_cases e s

theorem stuffCmd_of_bOutside (ha : s.aOff.toNat + s.aLen.toNat ≤ s.chip.bufCap)
    (hb : s.chip.bufCap < s.bOff.toNat + s.bLen.toNat) :
    stuffCmd e s = rejected (.operandError 3) s := by
  simpa [ha, ha.not_gt, hb, hb.not_ge] using stuffCmd_cases e s

theorem stuffCmd_of_overlap (ha : s.aOff.toNat + s.aLen.toNat ≤ s.chip.bufCap)
    (hb : s.bOff.toNat + s.bLen.toNat ≤ s.chip.bufCap) (ho : slicesOverlap s) :
    stuffCmd e s = rejected (.operandError 4) s := by
  simpa only [ha, ha.not_gt, hb, hb.not_gt, eq_true ho, not_true_eq_false, true_and, false_and,
    false_or, or_false] using stuffCmd_cases e s

theorem stuffCmd_of_tooSmall (ha : s.aOff.toNat + s.aLen.toNat ≤ s.chip.bufCap)
    (hb : s.bOff.toNat + s.bLen.toNat ≤ s.chip.bufCap) (ho : ¬ slicesOverlap s)
    (hl : s.bLen.toNat < stuffMax s.aLen.toNat) :
    stuffCmd e s = rejected (.bufferTooSmall (stuffMax s.aLen.toNat) s.bLen.toNat) s := by
  simpa only [ha, ha.not_gt, hb, hb.not_gt, ho, hl, hl.not_ge, not_false_eq_true, true_and,
    false_and, false_or, or_false] using stuffCmd_cases e s

theorem stuffCmd_of_fits (ha : s.aOff.toNat + s.aLen.toNat ≤ s.chip.bufCap)
    (hb : s.bOff.toNat + s.bLen.toNat ≤ s.chip.bufCap) (ho : ¬ slicesOverlap s)
    (hl : stuffMax s.aLen.toNat ≤ s.bLen.toNat) : stuffCmd e s =
      sliceFilled e s.bOff.toNat s.bLen.toNat (stuff (sliceA e s)) s := by
  simpa only [ha, ha.not_gt, hb, hb.not_gt, ho, hl, hl.not_gt, not_false_eq_true, true_and,
    false_and, false_or, stuffDone_eq_sliceFilled] using stuffCmd_cases e s

/-- The size `STUFF` asks for does not wrap in `E_A`, since slice A ends inside `BUF` (R11, R186). -/
theorem errorInfoA_bufferTooSmall_stuffMax {available : Nat}
    (ha : s.aOff.toNat + s.aLen.toNat ≤ s.chip.bufCap) :
    (errorInfoA (.bufferTooSmall (stuffMax s.aLen.toNat) available)).toNat = stuffMax s.aLen.toNat := by
  have hfits : stuffMax s.aLen.toNat < 2 ^ 32 := by
    obtain ⟨-, hcap⟩ := bufCap_bounds s.chip
    rw [stuffMax]
    split <;> omega
  rw [errorInfoA, BitVec.toNat_ofNat, Nat.mod_eq_of_lt hfits]

theorem errorInfoB_bufferTooSmall {required : Nat} (len : Word32) :
    (errorInfoB (.bufferTooSmall required len.toNat)).toNat = len.toNat := by
  simp [errorInfoB]

/-- Slice A does not overlap slice B, so it stays as it was when only slice B is written. -/
theorem sliceA_eq_of_keepsBufOutside_sliceB (hops : KeepsOperands s t) (ho : ¬ slicesOverlap s)
    (hbuf : KeepsBufOutside s t s.bOff.toNat s.bLen.toNat) :
    sliceA Config.env t = sliceA Config.env s := by
  obtain ⟨-, hoff, hlen, -⟩ := hops
  rw [sliceA, hoff, hlen]
  exact readBytes_congr _ fun a h1 h2 => hbuf a (by simp only [slicesOverlap] at ho; omega)

/-! ### `UNSTUFF` (R118) -/

theorem unstuffCmd_of_outside (hout : s.chip.bufCap < s.aOff.toNat + s.aLen.toNat) :
    unstuffCmd e s = rejected (.operandError 2) s := by
  simpa [hout, hout.not_ge] using unstuffCmd_cases e s

theorem unstuffCmd_of_none (hin : s.aOff.toNat + s.aLen.toNat ≤ s.chip.bufCap)
    (hu : unstuff (stripTerm (sliceA e s)) = none) : unstuffCmd e s =
      raise .framingError (scramble e s.aOff.toNat s.aLen.toNat (clearResults s)) := by
  simpa [hin, hin.not_gt, hu] using unstuffCmd_cases e s

theorem unstuffCmd_of_some {r : List Byte} (hin : s.aOff.toNat + s.aLen.toNat ≤ s.chip.bufCap)
    (hu : unstuff (stripTerm (sliceA e s)) = some r) :
    unstuffCmd e s = sliceFilled e s.aOff.toNat s.aLen.toNat r s := by
  simpa [hin, hin.not_gt, hu, unstuffDone_eq_sliceFilled] using unstuffCmd_cases e s

theorem unstuff_sliceA_length_le {r : List Byte} (hu : unstuff (stripTerm (sliceA e s)) = some r) :
    r.length ≤ s.aLen.toNat :=
  calc r.length ≤ (stripTerm (sliceA e s)).length := unstuff_length_le hu
    _ ≤ (sliceA e s).length := stripTerm_length_le _
    _ = s.aLen.toNat := sliceA_length ..

end

/-! ### The statements -/

/-- Settles O15: `CRC16` sets `R_VAL` on cleared results, and rejects a slice outside `BUF`. -/
theorem crc16GivesTheChecksum : Obligations.Crc16GivesTheChecksum := by
  refine ⟨decode_encode .crc16, fun s => ⟨fun hin => ?_, fun hout => ?_⟩⟩
  · exact ⟨_, (exec_crc16 s).trans (congrArg _ (crc16Cmd_of_inside hin)),
      setVal_succeeds ((BitVec.isLt _).trans (by decide)) s, setVal_keepsAllElse _ s⟩
  · exact exec_ends_of_rejected (exec_crc16 s) (crc16Cmd_of_outside hout) rfl rfl rfl

/-- Settles O16: the stuffed bytes fit into slice B, which they fill from its start; slice A lies beside it;
the four errors reject the command. -/
theorem stuffWritesTheStuffedSlice : Obligations.StuffWritesTheStuffedSlice := by
  refine ⟨decode_encode .stuff, fun s => ⟨fun ha hb ho hl => ?_, fun ha => ?_, fun ha hb => ?_,
    fun ha hb ho => ?_, fun ha hb ho hl => ?_⟩⟩
  · have hdone := stuffCmd_of_fits (e := Config.env) ha hb ho hl
    have hexec := (exec_stuff s).trans (congrArg _ hdone)
    have hlen : (stuff (sliceA Config.env s)).length ≤ s.bLen.toNat := by
      calc _ ≤ stuffMax (sliceA Config.env s).length := stuff_length_le _
        _ ≤ s.bLen.toNat := by rwa [sliceA_length]
    have hops := (ended_of_exec hexec).keeps
    have hbuf := hdone ▸ stuffCmd_keepsBufOutside s
    exact ⟨_, hexec, sliceFilled_succeeds _ s _ _ _ s.bOff.isLt (hlen.trans_lt s.bLen.isLt),
      readBytes_sliceFilled .., sliceA_eq_of_keepsBufOutside_sliceB hops ho hbuf, hbuf, hops,
      sliceFilled_keepsPacket .., sliceFilled_keepsOut _ s _ _ _⟩
  · exact exec_ends_of_rejected (exec_stuff s) (stuffCmd_of_aOutside ha) rfl rfl rfl
  · exact exec_ends_of_rejected (exec_stuff s) (stuffCmd_of_bOutside ha hb) rfl rfl rfl
  · exact exec_ends_of_rejected (exec_stuff s) (stuffCmd_of_overlap ha hb ho) rfl rfl rfl
  · exact exec_ends_of_rejected (exec_stuff s) (stuffCmd_of_tooSmall ha hb ho hl) rfl
      (errorInfoA_bufferTooSmall_stuffMax ha) (errorInfoB_bufferTooSmall _)

/-- Settles O17: unstuffed bytes are no more than slice A holds, which they fill from its start; data that
does not unstuff is an error raised on a slice A that is `ANY`. -/
theorem unstuffWorksInPlace : Obligations.UnstuffWorksInPlace := by
  refine ⟨decode_encode .unstuff, fun s => ⟨fun r hin hu => ?_, fun hin hu => ?_, fun hout => ?_⟩⟩
  · have hdone := unstuffCmd_of_some hin hu
    have hexec := (exec_unstuff s).trans (congrArg _ hdone)
    have hlen := unstuff_sliceA_length_le hu
    exact ⟨_, hexec, sliceFilled_succeeds _ s _ _ _ s.aOff.isLt (hlen.trans_lt s.aLen.isLt),
      readBytes_sliceFilled .., hdone ▸ unstuffCmd_keepsBufOutside s, (ended_of_exec hexec).keeps,
      sliceFilled_keepsPacket .., sliceFilled_keepsOut _ s _ _ _⟩
  · have hfailed := unstuffCmd_of_none hin hu
    have hexec := (exec_unstuff s).trans (congrArg _ hfailed)
    have hbuf := hfailed ▸ unstuffCmd_keepsBufOutside s
    refine ⟨_, hexec, ?_, hbuf, (ended_of_exec hexec).keeps, ?_⟩
    · simp [FailsWith, errorCode, errorInfoA, errorInfoB]
    · simp [KeepsPacket, KeepsOut]
  · exact exec_ends_of_rejected (exec_unstuff s) (unstuffCmd_of_outside hout) rfl rfl rfl

/-- Settles O36, by the equations of `stuff` for each kind of block. -/
theorem stuffFollowsTheBlockRule : Obligations.StuffFollowsTheBlockRule :=
  ⟨zero_notMem_stuff, rfl, fun _ => stuff_run, fun _ _ => stuff_run_zero, fun _ => stuff_full_end,
    fun _ _ => stuff_full_more⟩

/-- Settles O37, by the equation of `unstuff` for one block. -/
theorem unstuffFollowsTheBlockRule : Obligations.UnstuffFollowsTheBlockRule := by
  refine ⟨rfl, unstuff_zero_code, fun _ _ => unstuff_past_end, fun c blk after hc hb h0 => ?_,
    fun c blk after hc hb h0 => ?_⟩
  · rw [unstuff_block hc hb, if_pos h0]
  · rw [unstuff_block hc hb, if_neg h0]

/-- Settles O39, by induction over the blocks of the data for each bound. -/
theorem stuffedLengthIsBounded : Obligations.StuffedLengthIsBounded :=
  ⟨rfl, fun _ => stuffMax_of_pos, rfl, fun raw _ => ⟨stuff_length_ge raw, stuff_length_le raw⟩,
    fun _ => stuff_length_of_zero_notMem⟩

/-- Settles O38, by the last byte. -/
theorem stripTermDropsOneTrailingZero : Obligations.StripTermDropsOneTrailingZero := by
  refine ⟨fun s => ?_, fun s b hb => ?_, rfl⟩
  · rw [stripTerm_concat, if_pos rfl]
  · rw [stripTerm_concat, if_neg hb]

end Sys2Proof.Machine

/-! PROOFS of the statements about the framer (`42_framer.md`): the bytes of a raw frame, and how `ENCSIZE`
and `ENCODE` end. -/

namespace Sys2Proof.Machine

/-! ### The raw frame and its wire frame (R130, R133) -/

theorem ofNat_controlByte (k : BitVec 1) (d : BitVec 5) :
    BitVec.ofNat 8 (k.toNat * 128 + d.toNat * 4) = controlByte k d := by
  rw [← controlByte_toNat, BitVec.ofNat_toNat, BitVec.setWidth_eq]

theorem wireFrame_length (e : Env) (c : Chip) (p : Packet) :
    (wireFrame e c p).length = (stuff (frameRaw e c p)).length + 1 := by
  simp [wireFrame]

theorem frameRaw_pkPacket_length (e : Env) (s : State) :
    (frameRaw e s.chip (pkPacket s)).length = 13 + s.pkPlen.toNat :=
  (frameRaw_length e s.chip (pkPacket s)).trans (congrArg (13 + ·) (pkPayload_length s))

/-- Both frames of the packet register fit into the slice `ENCODE` asks for (R131). -/
theorem pkPacket_frames_length_le (e : Env) (s : State) :
    13 + s.pkPlen.toNat + (wireFrame e s.chip (pkPacket s)).length ≤ encSize s.pkPlen.toNat := by
  have h := frameRaw_wireFrame_length_le e s.chip (pkPacket s)
  rwa [frameRaw_pkPacket_length, show (pkPacket s).payload.length = _ from pkPayload_length s] at h

/-- The size `ENCODE` asks for does not wrap in a 32-bit register, since a payload has at most 255 bytes. -/
theorem encSize_pkPlen_lt (s : State) : encSize s.pkPlen.toNat < 2 ^ 32 := by
  have := s.pkPlen.isLt
  rw [encSize_eq]
  omega

/-! ### `ENCODE` (R133, R134) -/

theorem errorInfoA_bufferTooSmall {required : Nat} (h : required < 2 ^ 32) (available : Nat) :
    (errorInfoA (.bufferTooSmall required available)).toNat = required := by
  rw [errorInfoA, BitVec.toNat_ofNat, Nat.mod_eq_of_lt h]

theorem clearResults_writeBytes (off : Nat) (bs : List Byte) (s : State) :
    clearResults (writeBytes off bs s) = writeBytes off bs (clearResults s) := rfl

theorem readBytes_sliceFilled_before (e : Env) (s : State) {off n o m : Nat} {bs : List Byte}
    (h : o + m ≤ off) : readBytes e (sliceFilled e off n bs s) o m = readBytes e s o m := by
  rw [sliceFilled, readBytes_setSlice, readBytes_scramble_outside _ _ (.inl (by omega)),
    readBytes_writeBytes_outside _ _ (.inl h), readBytes_clearResults]

section
variable {e : Env} {s : State}

/-- The wire frame fills slice A behind the raw frame. -/
theorem encodeDone_eq_sliceFilled : encodeDone e s =
    sliceFilled e (s.aOff.toNat + (13 + s.pkPlen.toNat)) (s.aLen.toNat - (13 + s.pkPlen.toNat))
      (wireFrame e s.chip (pkPacket s))
      (writeBytes s.aOff.toNat (frameRaw e s.chip (pkPacket s)) s) := by
  simp only [encodeDone, sliceFilled, frameRaw_pkPacket_length, Nat.sub_add_eq, clearResults_writeBytes]

theorem encodeDone_succeeds (hin : s.aOff.toNat + s.aLen.toNat ≤ s.chip.bufCap)
    (hl : encSize s.pkPlen.toNat ≤ s.aLen.toNat) :
    Succeeds (encodeDone e s) (s.aOff.toNat + (13 + s.pkPlen.toNat))
      ((stuff (frameRaw e s.chip (pkPacket s))).length + 1) 0 0 := by
  have hfits := pkPacket_frames_length_le e s
  obtain ⟨-, hcap⟩ := bufCap_bounds s.chip
  rw [encodeDone_eq_sliceFilled, ← wireFrame_length]
  exact sliceFilled_succeeds _ _ _ _ _ (by omega) (by omega)

theorem readBytes_encodeDone_rawFrame :
    readBytes e (encodeDone e s) s.aOff.toNat (13 + s.pkPlen.toNat) =
      frameRaw e s.chip (pkPacket s) := by
  rw [encodeDone_eq_sliceFilled, readBytes_sliceFilled_before _ _ le_rfl, ← frameRaw_pkPacket_length e,
    readBytes_writeBytes]

theorem readBytes_encodeDone_wireFrame :
    readBytes e (encodeDone e s) (s.aOff.toNat + (13 + s.pkPlen.toNat))
      ((stuff (frameRaw e s.chip (pkPacket s))).length + 1) =
      stuff (frameRaw e s.chip (pkPacket s)) ++ [0#8] := by
  rw [encodeDone_eq_sliceFilled, ← wireFrame_length, readBytes_sliceFilled, wireFrame]

theorem encodeDone_keepsPacket : KeepsPacket s (encodeDone e s) := by
  simp [KeepsPacket, encodeDone]

theorem encodeDone_keepsOut : KeepsOut s (encodeDone e s) := by
  simp [KeepsOut, encodeDone]

theorem encodeCmd_of_outside (hout : s.chip.bufCap < s.aOff.toNat + s.aLen.toNat) :
    encodeCmd e s = rejected (.operandError 2) s := by
  simpa [hout, hout.not_ge] using encodeCmd_cases e s

theorem encodeCmd_of_unassigned (hin : s.aOff.toNat + s.aLen.toNat ≤ s.chip.bufCap)
    (hd : devAssigned s.chip s.pkDev = false) : encodeCmd e s = rejected (.operandError 6) s := by
  simpa [hin, hin.not_gt, hd] using encodeCmd_cases e s

theorem encodeCmd_of_tooSmall (hin : s.aOff.toNat + s.aLen.toNat ≤ s.chip.bufCap)
    (hd : devAssigned s.chip s.pkDev = true) (hl : s.aLen.toNat < encSize s.pkPlen.toNat) :
    encodeCmd e s = rejected (.bufferTooSmall (encSize s.pkPlen.toNat) s.aLen.toNat) s := by
  simpa [hin, hin.not_gt, hd, hl, hl.not_ge] using encodeCmd_cases e s

theorem encodeCmd_of_fits (hin : s.aOff.toNat + s.aLen.toNat ≤ s.chip.bufCap)
    (hd : devAssigned s.chip s.pkDev = true) (hl : encSize s.pkPlen.toNat ≤ s.aLen.toNat) :
    encodeCmd e s = encodeDone e s := by
  simpa [hin, hin.not_gt, hd, hl, hl.not_gt] using encodeCmd_cases e s

end

/-! ### The statements -/

/-- Settles O43: the frame's bytes are the model's own, with the control byte read as a number. -/
theorem rawFrameLayout : Obligations.RawFrameLayout := by
  intro e c p _
  rw [ofNat_controlByte]
  exact ⟨_, rfl, rfl, frameRaw_length e c p⟩

/-- Settles O18: `ENCSIZE` sets `R_VAL` on cleared results to a size that fits into it. -/
theorem encsizeGivesTheSliceLength : Obligations.EncsizeGivesTheSliceLength := by
  refine ⟨decode_encode .encsize, fun s => ?_⟩
  rw [exec_encsize, encsizeCmd_eq, ← encSize_eq]
  exact ⟨_, rfl, setVal_succeeds (encSize_pkPlen_lt s) s, setVal_keepsAllElse _ s⟩

/-- Settles O19: both frames fit into slice A, the wire frame right behind the raw one, so each reads back;
the three errors reject the command. -/
theorem encodeWritesTheWireFrame : Obligations.EncodeWritesTheWireFrame := by
  refine ⟨decode_encode .encode, fun s => ⟨fun hin hd hl => ?_, fun hout => ?_, fun hin hd => ?_,
    fun hin hd hl => ?_⟩⟩
  · have hdone := encodeCmd_of_fits (e := Config.env) hin hd hl
    have hexec := (exec_encode s).trans (congrArg _ hdone)
    exact ⟨_, _, hexec, rfl, frameRaw_pkPacket_length _ s, encodeDone_succeeds hin hl,
      readBytes_encodeDone_rawFrame, readBytes_encodeDone_wireFrame, zero_notMem_stuff _,
      encodeDone_keepsBufOutside hl, (ended_of_exec hexec).keeps, encodeDone_keepsPacket,
      encodeDone_keepsOut⟩
  · exact exec_ends_of_rejected (exec_encode s) (encodeCmd_of_outside hout) rfl rfl rfl
  · exact exec_ends_of_rejected (exec_encode s) (encodeCmd_of_unassigned hin hd) rfl rfl rfl
  · exact exec_ends_of_rejected (exec_encode s) (encodeCmd_of_tooSmall hin hd hl) rfl
      (errorInfoA_bufferTooSmall (encSize_pkPlen_lt s) _) (errorInfoB_bufferTooSmall _)

end Sys2Proof.Machine

/-! PROOFS of the statements about the deframer (`43_deframer.md`): the validation chain of `decode_frame`,
and how `DECODE1` ends. -/

namespace Sys2Proof.Machine

/-! ### The fields of an unstuffed frame (R147 to R152) -/

/-- The checksum a frame carries: its last two bytes, low byte first (R149). -/
def embeddedChecksum (f : List Byte) : BitVec 16 := BitVec.ofNat 16 (fromLe (f.drop (f.length - 2)))

/-- The packet whose fields a frame carries, judged by none of the checks (R152). -/
def carriedPacket (f : List Byte) : Packet where
  kind := controlKind (f.getD 2 0#8)
  dev := controlDev (f.getD 2 0#8)
  ts := BitVec.ofNat 64 (fromLe ((f.drop 3).take 8))
  payload := (f.drop 11).take (f.getD 1 0#8).toNat

theorem fromLe_lt (bs : List Byte) : fromLe bs < 256 ^ bs.length := by
  induction bs with
  | nil => simp [fromLe]
  | cons b bs ih =>
    have := b.isLt
    rw [fromLe, List.length_cons, Nat.pow_succ]
    omega

theorem embeddedChecksum_eq {f : List Byte} {found : BitVec 16}
    (h : found.toNat = fromLe (f.drop (f.length - 2))) : embeddedChecksum f = found := by
  rw [embeddedChecksum, ← h, BitVec.ofNat_toNat, BitVec.setWidth_eq]

/-- Eight bytes fit into the timestamp. -/
theorem carriedPacket_ts_toNat (f : List Byte) :
    (carriedPacket f).ts.toNat = fromLe ((f.drop 3).take 8) := by
  have hlt : fromLe ((f.drop 3).take 8) < 2 ^ 64 :=
    calc fromLe ((f.drop 3).take 8) < 256 ^ ((f.drop 3).take 8).length := fromLe_lt _
      _ ≤ 256 ^ 8 := Nat.pow_le_pow_right (by decide) (List.length_take_le ..)
  exact Nat.mod_eq_of_lt hlt

/-- Where the length byte is right, the payload ends where the checksum begins. -/
theorem carriedPacket_payload {f : List Byte} (hn : (f.getD 1 0#8).toNat = f.length - 13) :
    (carriedPacket f).payload = (f.take (f.length - 2)).drop 11 := by
  rw [carriedPacket, hn, List.drop_take, Nat.sub_sub]

theorem carriedPacket_payload_length_le (f : List Byte) : (carriedPacket f).payload.length ≤ 255 :=
  (List.length_take_le ..).trans (Nat.le_of_lt_succ (f.getD 1 0#8).isLt)

/-! ### The checks, in their order (R147 to R152) -/

section
variable {e : Env} {c : Chip} {f : List Byte}

theorem parseFrame_of_short (hm : f.length < 13) : parseFrame e c f = .error (.bufferTooShort f.length) :=
  if_pos hm

theorem parseFrame_of_version_ne (hm : 13 ≤ f.length) (hv : f.getD 0 0#8 ≠ c.version) :
    parseFrame e c f = .error (.unsupportedVersion (f.getD 0 0#8)) := by
  rw [parseFrame, if_neg hm.not_gt, if_pos hv]

theorem parseFrame_of_checksum_ne (hm : 13 ≤ f.length) (hv : f.getD 0 0#8 = c.version)
    (hx : e.crc16 (f.take (f.length - 2)) ≠ embeddedChecksum f) : parseFrame e c f =
      .error (.invalidChecksum (e.crc16 (f.take (f.length - 2))) (embeddedChecksum f)) := by
  rw [parseFrame, if_neg hm.not_gt, if_neg (not_not_intro hv)]
  exact if_pos hx

/-- The checks on the fields, which a frame reaches that is long enough, of this version and intact. -/
theorem parseFrame_of_intact (hm : 13 ≤ f.length) (hv : f.getD 0 0#8 = c.version)
    (hx : e.crc16 (f.take (f.length - 2)) = embeddedChecksum f) : parseFrame e c f =
      if (f.getD 1 0#8).toNat ≠ f.length - 13 then
        .error (.invalidLength (f.length - 13) (f.getD 1 0#8))
      else if devAssigned c ((carriedPacket f).dev.setWidth 8) = true then .ok (carriedPacket f)
      else .error (.invalidId ((carriedPacket f).dev.setWidth 8)) := by
  rw [parseFrame, if_neg hm.not_gt, if_neg (not_not_intro hv)]
  refine (if_neg (not_not_intro hx)).trans (if_congr Iff.rfl rfl ?_)
  exact ite_not ..

/-- A frame is accepted just when it passes every check, and then as the packet it carries. -/
theorem parseFrame_eq_ok_iff {p : Packet} : parseFrame e c f = .ok p ↔
    13 ≤ f.length ∧ f.getD 0 0#8 = c.version ∧
    e.crc16 (f.take (f.length - 2)) = embeddedChecksum f ∧
    (f.getD 1 0#8).toNat = f.length - 13 ∧
    devAssigned c ((carriedPacket f).dev.setWidth 8) = true ∧ carriedPacket f = p := by
  by_cases hm : 13 ≤ f.length
  · by_cases hv : f.getD 0 0#8 = c.version
    · by_cases hx : e.crc16 (f.take (f.length - 2)) = embeddedChecksum f
      · rw [parseFrame_of_intact hm hv hx]
        split_ifs with hn hd
        · simp only [hn, false_and, and_false]
        · simp only [hm, hv, hx, not_not.mp hn, hd, true_and, Except.ok.injEq]
        · simp only [hd, reduceCtorEq, false_and, and_false]
      · simp only [parseFrame_of_checksum_ne hm hv hx, hx, reduceCtorEq, false_and, and_false]
    · simp only [parseFrame_of_version_ne hm hv, hv, reduceCtorEq, false_and, and_false]
  · simp only [parseFrame_of_short (not_le.mp hm), hm, reduceCtorEq, false_and]

end

/-! ### `decode_frame` (R144) -/

section
variable {e : Env} {c : Chip} {s : List Byte}

theorem decodeFrame_of_none (hu : unstuff (stripTerm s) = none) :
    decodeFrame e c s = .error .framingError := by
  rw [decodeFrame, hu]

theorem decodeFrame_of_some {f : List Byte} (hu : unstuff (stripTerm s) = some f) :
    decodeFrame e c s = parseFrame e c f := by
  rw [decodeFrame, hu]

theorem decodeFrame_payload_length_le {p : Packet} (h : decodeFrame e c s = .ok p) :
    p.payload.length ≤ 255 := by
  cases hu : unstuff (stripTerm s) with
  | none => cases (decodeFrame_of_none hu).symm.trans h
  | some f =>
    obtain ⟨-, -, -, -, -, rfl⟩ := parseFrame_eq_ok_iff.mp ((decodeFrame_of_some hu).symm.trans h)
    exact carriedPacket_payload_length_le f

end

/-! ### `DECODE1` (R153, R154) -/

section
variable {e : Env} {s : State}

theorem decode1Cmd_of_outside (hout : s.chip.bufCap < s.aOff.toNat + s.aLen.toNat) :
    decode1Cmd e s = rejected (.operandError 2) s := by
  simpa [hout, hout.not_ge] using decode1Cmd_cases e s

theorem decode1Cmd_of_error {err : CmdError} (hin : s.aOff.toNat + s.aLen.toNat ≤ s.chip.bufCap)
    (h : decodeFrame e s.chip (sliceA e s) = .error err) : decode1Cmd e s =
      raise err (scramble e s.aOff.toNat s.aLen.toNat (clearResults s)) := by
  simpa [hin, hin.not_gt, h] using decode1Cmd_cases e s

theorem decode1Cmd_of_ok {p : Packet} (hin : s.aOff.toNat + s.aLen.toNat ≤ s.chip.bufCap)
    (h : decodeFrame e s.chip (sliceA e s) = .ok p) : decode1Cmd e s =
      setPacket e p (scramble e s.aOff.toNat s.aLen.toNat (clearResults s)) := by
  simpa [hin, hin.not_gt, h] using decode1Cmd_cases e s

end

/-- The payload a packet brings is read back from the packet register. -/
theorem pkPayload_setPacket (e : Env) (s : State) {p : Packet} (h : p.payload.length ≤ 255) :
    pkPayload (setPacket e p s) = p.payload :=
  pkPayload_loadPayload e s h

theorem setPacket_pkPlen_toNat (e : Env) (s : State) {p : Packet} (h : p.payload.length ≤ 255) :
    (setPacket e p s).pkPlen.toNat = p.payload.length := by
  rw [setPacket_pkPlen, BitVec.toNat_ofNat, Nat.mod_eq_of_lt (by omega)]

/-! ### The statements -/

/-- Settles O46, by the equation of the parse for each check that fails first. -/
theorem decodeFrameValidatesInOrder : Obligations.DecodeFrameValidatesInOrder := by
  refine fun e c s => ⟨decodeFrame_of_none, fun f hu => ?_⟩
  rw [decodeFrame_of_some hu]
  refine ⟨parseFrame_of_short, fun hm v n ctl h0 h1 h2 found hfound => ?_⟩
  obtain rfl : f.getD 0 0#8 = v := by simp [h0]
  obtain rfl : f.getD 1 0#8 = n := by simp [h1]
  obtain rfl : f.getD 2 0#8 = ctl := by simp [h2]
  obtain rfl := embeddedChecksum_eq hfound
  refine ⟨parseFrame_of_version_ne hm, parseFrame_of_checksum_ne hm, fun hv hx hn => ?_,
    fun hv hx hn hd => ?_, fun hv hx hn hd => ?_⟩
  · rw [parseFrame_of_intact hm hv hx, if_pos hn]
  · rw [parseFrame_of_intact hm hv hx, if_neg (not_not_intro hn)]
    exact if_neg (Bool.not_eq_true _ ▸ hd)
  · exact ⟨_, parseFrame_eq_ok_iff.mpr ⟨hm, hv, hx, hn, hd, rfl⟩, rfl, rfl,
      carriedPacket_ts_toNat f, carriedPacket_payload hn⟩

/-- Settles O20: slice A becomes `ANY`, then the packet register takes the decoded packet, whose payload
fits, or the frame's error is raised; a slice outside `BUF` is rejected. -/
theorem decode1RecoversThePacket : Obligations.Decode1RecoversThePacket := by
  refine ⟨decode_encode .decode1, fun s => ⟨fun p hin hp => ?_, fun err hin herr => ?_, fun hout => ?_⟩⟩
  · have hdone := decode1Cmd_of_ok hin hp
    have hexec := (exec_decode1 s).trans (congrArg _ hdone)
    have hlen := decodeFrame_payload_length_le hp
    exact ⟨_, hexec, clearResults_succeeds s, rfl, rfl, rfl, setPacket_pkPlen_toNat _ _ hlen,
      pkPayload_setPacket _ _ hlen, hdone ▸ decode1Cmd_keepsBufOutside s, (ended_of_exec hexec).keeps,
      fun _ => rfl⟩
  · have hfailed := decode1Cmd_of_error hin herr
    have hexec := (exec_decode1 s).trans (congrArg _ hfailed)
    refine ⟨_, hexec, ?_, hfailed ▸ decode1Cmd_keepsBufOutside s, (ended_of_exec hexec).keeps, ?_⟩
    · simp [FailsBy]
    · simp [KeepsPacket, KeepsOut]
  · exact exec_ends_of_rejected (exec_decode1 s) (decode1Cmd_of_outside hout) rfl rfl rfl

end Sys2Proof.Machine

/-! PROOFS of the statements about streams (`44_stream_sync.md`): `decode_stream` frame by frame, and how
`DECODES` ends. -/

namespace Sys2Proof.Machine

/-! ### The next delimiter (R166) -/

theorem findZero_of_notMem {bytes : List Byte} (h : 0#8 ∉ bytes) : findZero bytes = none := by
  induction bytes with
  | nil => rfl
  | cons b bytes ih =>
    obtain ⟨hb, hbytes⟩ := not_or.mp (mt List.mem_cons.mpr h)
    rw [findZero, if_neg (Ne.symm hb), ih hbytes, Option.map_none]

/-- The first zero byte stands where the bytes without one end. -/
theorem findZero_append_zero {frame : List Byte} (h : 0#8 ∉ frame) (rest : List Byte) :
    findZero (frame ++ 0#8 :: rest) = some frame.length := by
  induction frame with
  | nil => rfl
  | cons b frame ih =>
    obtain ⟨hb, hframe⟩ := not_or.mp (mt List.mem_cons.mpr h)
    rw [List.cons_append, findZero, if_neg (Ne.symm hb), ih hframe, Option.map_some, List.length_cons]

/-- Induction over the frames of a stream as `decode_stream` meets them: no slot is left, no zero byte is
in sight, or a frame and its delimiter come first and take a slot (R166). -/
theorem frame_induction {motive : Nat → List Byte → Prop}
    (no_slot : ∀ bytes, motive 0 bytes)
    (no_zero : ∀ cap bytes, 0#8 ∉ bytes → motive cap bytes)
    (frame : ∀ cap frame rest, 0#8 ∉ frame → motive cap rest → motive (cap + 1) (frame ++ 0#8 :: rest))
    (cap : Nat) (bytes : List Byte) : motive cap bytes := by
  induction cap generalizing bytes with
  | zero => exact no_slot bytes
  | succ cap ih =>
    by_cases h : 0#8 ∈ bytes
    · obtain ⟨pre, rest, rfl, hpre⟩ := List.eq_append_cons_of_mem h
      exact frame cap pre rest hpre (ih rest)
    · exact no_zero _ bytes h

/-! ### `decode_stream`, one frame at a time (R165 to R169) -/

/-- A result whose indexes are counted from `n` bytes earlier on. -/
def StreamResult.advance (n : Nat) : StreamResult → StreamResult
  | .ok cur pkts => .ok (n + cur) pkts
  | .err e z k => .err e (n + z) k

theorem StreamResult.advance_consPacket (n : Nat) (p : Packet) (r : StreamResult) :
    (consPacket p r).advance n = consPacket p (r.advance n) := by
  cases r <;> rfl

theorem StreamResult.advance_advance (m n : Nat) (r : StreamResult) :
    (r.advance m).advance n = r.advance (n + m) := by
  cases r <;> simp [StreamResult.advance, Nat.add_assoc]

section
variable {e : Env} {c : Chip} {cap : Nat} {bytes frame rest : List Byte}

theorem streamLoop_of_no_zero (h : 0#8 ∉ bytes) (n : Nat) : streamLoop e c cap n bytes = .ok n [] := by
  cases cap with
  | zero => rfl
  | succ cap => rw [streamLoop, findZero_of_notMem h]

/-- A frame that fails ends the loop (R167). -/
theorem streamLoop_frame_error {err : CmdError} (h : 0#8 ∉ frame)
    (hf : decodeFrame e c frame = .error err) (n : Nat) :
    streamLoop e c (cap + 1) n (frame ++ 0#8 :: rest) = .err err (n + frame.length) 0 := by
  simp only [streamLoop, findZero_append_zero h, List.take_left, hf]

/-- A frame that decodes is followed by what the loop makes of the bytes behind its delimiter (R168). -/
theorem streamLoop_frame_ok {p : Packet} (h : 0#8 ∉ frame) (hf : decodeFrame e c frame = .ok p)
    (n : Nat) : streamLoop e c (cap + 1) n (frame ++ 0#8 :: rest) =
      consPacket p (streamLoop e c cap (n + (frame.length + 1)) rest) := by
  have hdrop : (frame ++ 0#8 :: rest).drop (frame.length + 1) = rest := by simp
  simp only [streamLoop, findZero_append_zero h, List.take_left, hf, hdrop, Nat.add_assoc]

/-- The loop decodes the unconsumed bytes as a stream of their own, and only counts the consumed ones. -/
theorem streamLoop_eq_advance (e : Env) (c : Chip) (cap n : Nat) (bytes : List Byte) :
    streamLoop e c cap n bytes = (decodeStream e c bytes cap).advance n := by
  induction cap, bytes using frame_induction generalizing n with
  | no_slot bytes => rfl
  | no_zero cap bytes h => rw [decodeStream, streamLoop_of_no_zero h, streamLoop_of_no_zero h]; rfl
  | frame cap frame rest h ih =>
    cases hf : decodeFrame e c frame with
    | error err =>
      rw [decodeStream, streamLoop_frame_error h hf, streamLoop_frame_error h hf, Nat.zero_add]
      rfl
    | ok p =>
      rw [decodeStream, streamLoop_frame_ok h hf, streamLoop_frame_ok h hf, ih, ih,
        StreamResult.advance_consPacket, StreamResult.advance_advance, Nat.zero_add]

theorem decodeStream_no_slot (e : Env) (c : Chip) (bytes : List Byte) :
    decodeStream e c bytes 0 = .ok 0 [] := rfl

theorem decodeStream_no_zero (h : 0#8 ∉ bytes) : decodeStream e c bytes cap = .ok 0 [] :=
  streamLoop_of_no_zero h 0

theorem decodeStream_frame_error {err : CmdError} (h : 0#8 ∉ frame)
    (hf : decodeFrame e c frame = .error err) :
    decodeStream e c (frame ++ 0#8 :: rest) (cap + 1) = .err err frame.length 0 := by
  rw [decodeStream, streamLoop_frame_error h hf, Nat.zero_add]

theorem decodeStream_frame_ok {p : Packet} (h : 0#8 ∉ frame) (hf : decodeFrame e c frame = .ok p) :
    decodeStream e c (frame ++ 0#8 :: rest) (cap + 1) =
      consPacket p ((decodeStream e c rest cap).advance (frame.length + 1)) := by
  rw [decodeStream, streamLoop_frame_ok h hf, Nat.zero_add, streamLoop_eq_advance]

end

/-! ### Streams that decode (R166, R168) -/

/-- Induction over a stream that decodes: nothing is consumed, or a good frame comes first. -/
theorem decodeStream_ok_induction {e : Env} {c : Chip}
    {motive : Nat → List Byte → Nat → List Packet → Prop}
    (stop : ∀ cap bytes, motive cap bytes 0 [])
    (frame : ∀ cap frame rest p cur pkts, decodeFrame e c frame = .ok p → motive cap rest cur pkts →
      motive (cap + 1) (frame ++ 0#8 :: rest) (frame.length + 1 + cur) (p :: pkts))
    {cap : Nat} {bytes : List Byte} {cur : Nat} {pkts : List Packet}
    (h : decodeStream e c bytes cap = .ok cur pkts) : motive cap bytes cur pkts := by
  induction cap, bytes using frame_induction generalizing cur pkts with
  | no_slot bytes => cases h; exact stop 0 bytes
  | no_zero cap bytes h0 => cases (decodeStream_no_zero h0).symm.trans h; exact stop cap bytes
  | frame cap pre rest h0 ih =>
    cases hf : decodeFrame e c pre with
    | error err => cases (decodeStream_frame_error h0 hf).symm.trans h
    | ok p =>
      rw [decodeStream_frame_ok h0 hf] at h
      cases hr : decodeStream e c rest cap with
      | err err z k => rw [hr] at h; cases h
      | ok cur' pkts' => rw [hr] at h; cases h; exact frame cap pre rest p cur' pkts' hf (ih hr)

section
variable {e : Env} {c : Chip} {cap cur : Nat} {bytes : List Byte} {pkts : List Packet}

theorem decodeStream_ok_packets_le (h : decodeStream e c bytes cap = .ok cur pkts) :
    pkts.length ≤ cap := by
  exact decodeStream_ok_induction (motive := fun cap _ _ pkts => pkts.length ≤ cap)
    (fun _ _ => Nat.zero_le _) (fun _ _ _ _ _ _ _ ih => Nat.succ_le_succ ih) h

theorem decodeStream_ok_consumed_le (h : decodeStream e c bytes cap = .ok cur pkts) :
    cur ≤ bytes.length := by
  refine decodeStream_ok_induction (motive := fun _ bytes cur _ => cur ≤ bytes.length)
    (fun _ _ => Nat.zero_le _) (fun cap frame rest p cur pkts _ ih => ?_) h
  simp only [List.length_append, List.length_cons]
  omega

theorem decodeStream_ok_payload_length_le (h : decodeStream e c bytes cap = .ok cur pkts) :
    ∀ p ∈ pkts, p.payload.length ≤ 255 := by
  refine decodeStream_ok_induction (motive := fun _ _ _ pkts => ∀ p ∈ pkts, p.payload.length ≤ 255)
    (fun _ _ => by simp) (fun cap frame rest p cur pkts hf ih => ?_) h
  exact List.forall_mem_cons.mpr ⟨decodeFrame_payload_length_le hf, ih⟩

end

/-! ### `DECODES` (R171) -/

section
variable {e : Env} {s : State}

theorem decodesCmd_of_outside (hout : s.chip.bufCap < s.aOff.toNat + s.aLen.toNat) :
    decodesCmd e s = rejected (.operandError 2) s := by
  simpa [hout, hout.not_ge] using decodesCmd_cases e s

theorem decodesCmd_of_overCapacity (hin : s.aOff.toNat + s.aLen.toNat ≤ s.chip.bufCap)
    (hcap : s.chip.outSlots < s.outCap.toNat) : decodesCmd e s = rejected (.operandError 5) s := by
  simpa [hin, hin.not_gt, hcap, hcap.not_ge] using decodesCmd_cases e s

theorem decodesCmd_of_ok {cur : Nat} {pkts : List Packet}
    (hin : s.aOff.toNat + s.aLen.toNat ≤ s.chip.bufCap) (hcap : s.outCap.toNat ≤ s.chip.outSlots)
    (h : decodeStream e s.chip (sliceA e s) s.outCap.toNat = .ok cur pkts) :
    decodesCmd e s = decodesDone e s cur pkts := by
  simpa [hin, hin.not_gt, hcap, hcap.not_gt, h] using decodesCmd_cases e s

theorem decodesCmd_of_err {err : CmdError} {z k : Nat}
    (hin : s.aOff.toNat + s.aLen.toNat ≤ s.chip.bufCap) (hcap : s.outCap.toNat ≤ s.chip.outSlots)
    (h : decodeStream e s.chip (sliceA e s) s.outCap.toNat = .err err z k) :
    decodesCmd e s = decodesFailed e s err z := by
  simpa [hin, hin.not_gt, hcap, hcap.not_gt, h] using decodesCmd_cases e s

/-- What is consumed lies in slice A and the packets fit into `OUT_CAP`, so no result register wraps. -/
theorem decodesDone_succeeds {cur : Nat} {pkts : List Packet}
    (hin : s.aOff.toNat + s.aLen.toNat ≤ s.chip.bufCap)
    (h : decodeStream e s.chip (sliceA e s) s.outCap.toNat = .ok cur pkts) :
    Succeeds (decodesDone e s cur pkts) (s.aOff.toNat + cur) (s.aLen.toNat - cur) pkts.length 0 := by
  obtain ⟨-, hbuf⟩ := bufCap_bounds s.chip
  have hcur := decodeStream_ok_consumed_le h
  have hoff : s.aOff.toNat + cur < 2 ^ 32 := by rw [sliceA_length] at hcur; omega
  have hlen : s.aLen.toNat - cur < 2 ^ 32 := (Nat.sub_le ..).trans_lt s.aLen.isLt
  have hcnt : pkts.length < 2 ^ 32 := (decodeStream_ok_packets_le h).trans_lt s.outCap.isLt
  simpa [Succeeds, decodesDone] using ⟨hoff, hlen, hcnt⟩

theorem decodesFailed_failsBy (err : CmdError) (z : Nat) : FailsBy (decodesFailed e s err z) err := by
  simp [FailsBy, decodesFailed]

theorem decodesDone_keepsPacket (cur : Nat) (pkts : List Packet) :
    KeepsPacket s (decodesDone e s cur pkts) := by
  simp [KeepsPacket, decodesDone]

theorem decodesFailed_keepsPacket (err : CmdError) (z : Nat) :
    KeepsPacket s (decodesFailed e s err z) := by
  simp [KeepsPacket, decodesFailed]

/-- The output slots are those `writePackets` left. -/
theorem readOut_decodesDone (cur : Nat) (pkts : List Packet) (i : Nat) :
    readOut e (decodesDone e s cur pkts) i = readOut e (writePackets e pkts (clearResults s)) i := by
  rw [decodesDone, readOut_setCnt, readOut_setSlice, readOut_scramble]

theorem slotPacket_decodesDone {cur : Nat} {pkts : List Packet}
    (h : decodeStream e s.chip (sliceA e s) s.outCap.toNat = .ok cur pkts) {i : Nat}
    (hi : i < pkts.length) : slotPacket (readOut e (decodesDone e s cur pkts) i) = pkts[i] := by
  rw [readOut_decodesDone, readOut_writePackets, dif_pos hi]
  exact slotPacket_packetSlot _ _ (decodeStream_ok_payload_length_le h _ (List.getElem_mem hi))

end

/-! ### The statements -/

/-- Settles O52, by the equation of `decode_stream` for the frame that comes first. -/
theorem streamFollowsItsSteps : Obligations.StreamFollowsItsSteps := by
  refine fun e c cap => ⟨decodeStream_no_slot e c, fun _ => decodeStream_no_zero,
    fun _ _ _ => decodeStream_frame_error, fun frame rest p h hf =>
      ⟨fun cur pkts hr => ?_, fun err z k hr => ?_⟩⟩
  · rw [decodeStream_frame_ok h hf, hr]; rfl
  · rw [decodeStream_frame_ok h hf, hr]; rfl

/-- Settles O21: the packets go into `OUT`, each into a slot that holds it whole, and the bytes they came
in become `ANY`; a bad frame raises its error; the two operand errors reject the command. -/
theorem decodesRecoversTheStream : Obligations.DecodesRecoversTheStream := by
  refine ⟨decode_encode .decodes, fun s => ⟨fun cur pkts hin hcap hok => ?_,
    fun err z k hin hcap herr => ?_, fun hout => ?_, fun hin hcap => ?_⟩⟩
  · have hexec := (exec_decodes s).trans (congrArg _ (decodesCmd_of_ok hin hcap hok))
    exact ⟨_, hexec, decodesDone_succeeds hin hok, fun _ => slotPacket_decodesDone hok,
      decodesDone_keepsBufOutside cur pkts, (ended_of_exec hexec).keeps, decodesDone_keepsPacket cur pkts⟩
  · have hexec := (exec_decodes s).trans (congrArg _ (decodesCmd_of_err hin hcap herr))
    exact ⟨_, hexec, decodesFailed_failsBy err z, decodesFailed_keepsBufOutside err z,
      (ended_of_exec hexec).keeps, decodesFailed_keepsPacket err z⟩
  · exact exec_ends_of_rejected (exec_decodes s) (decodesCmd_of_outside hout) rfl rfl rfl
  · exact exec_ends_of_rejected (exec_decodes s) (decodesCmd_of_overCapacity hin hcap) rfl rfl rfl

end Sys2Proof.Machine

/-! PROOFS of the statements about errors (`60_exceptions.md`): every command and every move of the host ends
in a next state, and what `raise` leaves alone. -/

namespace Sys2Proof.Machine

/-! ### Every command and every step ends (R202, R233) -/

/-- A command that ended left `Ok` or the code of an error in `STATUS`. -/
theorem Ended.status_known {s t : State} (h : Ended s t) :
    t.status = 0#8 ∨ ∃ err : CmdError, t.status = errorCode err := by
  obtain ⟨hok, -⟩ | ⟨err, hcode, -⟩ := h.outcome
  · exact .inl hok
  · exact .inr ⟨err, hcode⟩

/-- A move that is not a write of `CMD` is total by its definition; one that is ends as a command. -/
theorem hostMove_next (m : HostMove) (s : State) : ∃ t, hostMove m s = .next t := by
  cases m with
  | set r v =>
    by_cases hr : r = .cmd
    · subst hr
      obtain ⟨t, ht, -⟩ := commandWrite_ended v s
      exact ⟨t, (hostMove_set_cmd v s).trans ht⟩
    · exact ⟨_, hostMove_set_of_ne hr v s⟩
  | _ => exact ⟨_, rfl⟩

theorem step_next (s : State) : ∃ t, step s = .next t := by
  unfold step
  cases s.moves with
  | nil => exact ⟨s, rfl⟩
  | cons m rest => exact hostMove_next m _

/-! ### What `raise` leaves alone (R197) -/

theorem readReg_raise_ne {r : Reg} (hstatus : r ≠ .status) (heA : r ≠ .eA) (heB : r ≠ .eB)
    (err : CmdError) (s : State) : readReg (raise err s) r = readReg s r := by
  cases r with
  | status => exact absurd rfl hstatus
  | eA => exact absurd rfl heA
  | eB => exact absurd rfl heB
  | _ => rfl

/-! ### The statements -/

/-- Settles O23: a command ends as `Ended` says, and a step makes one move of the host or none. -/
theorem everyCommandEnds : Obligations.EveryCommandEnds := by
  refine ⟨fun i s => ?_, step_next⟩
  obtain ⟨t, ht, hended⟩ := exec_ended i s
  exact ⟨t, ht, hended.status_known⟩

/-- Settles O24: `raise` writes the three registers of the error, whose code is not `Ok`, and no other
register. -/
theorem raiseRecordsTheErrorOnly : Obligations.RaiseRecordsTheErrorOnly := fun err s =>
  ⟨raise_status err s, raise_eA err s, raise_eB err s, errorCode_ne_zero err,
    fun _ hstatus heA heB => readReg_raise_ne hstatus heA heB err s,
    raise_pld err s, raise_buf err s, raise_out err s, raise_chip err s, raise_moves err s⟩

end Sys2Proof.Machine

/-! PROOFS of the remaining statements about the command word, the host's moves and the reset: what a step
makes of the queue, what a write to `BUF` leaves, and the little-endian numbers. -/

namespace Sys2Proof.Machine

/-! ### The command word (R85) -/

/-- No two bytes select one command. -/
theorem eq_encode_of_decode {c : Byte} {i : Instr} (h : decode c = .ok i) : c = encode i := by
  refine BitVec.eq_of_toNat_eq ?_
  unfold decode at h
  split at h <;> cases h <;> assumption

/-! ### A step makes the host's next move (R25, R211) -/

section
variable {s : State} {rest : List HostMove}

theorem step_of_moves {m : HostMove} (h : s.moves = m :: rest) :
    step s = hostMove m { s with moves := rest } := by
  rw [step, h]

theorem step_of_no_moves (h : s.moves = []) : step s = .next s := by
  rw [step, h]

theorem commandWrite_of_decode {v : Nat} {i : Instr} (h : decode (BitVec.ofNat 8 v) = .ok i) (s : State) :
    commandWrite v s = exec i (writeReg .cmd v s) := by
  rw [commandWrite, h]

theorem step_of_command {v : Nat} {i : Instr} (hmoves : s.moves = .set .cmd v :: rest)
    (h : decode (BitVec.ofNat 8 v) = .ok i) :
    step s = exec i { s with moves := rest, cmd := BitVec.ofNat 8 v } := by
  rw [step_of_moves hmoves, hostMove_set_cmd, commandWrite_of_decode h, writeReg_cmd]

end

theorem commandWord_of_decodeTableWord {nbits w : Nat} {i : Instr} (h : decodeTableWord nbits w = some i) :
    commandWord nbits w = encode i := by
  unfold decodeTableWord at h
  split at h
  · next hdec => cases h; exact eq_encode_of_decode hdec
  · cases h

/-- A fetched command word is a write of the command's code, which the next step runs. -/
theorem step_withFetchWord (s : State) {w : Nat} {i : Instr} (h : decodeTableWord 8 w = some i) :
    step (s.withFetchWord 8 w) = exec i { s with cmd := encode i } := by
  have hcode : BitVec.ofNat 8 (commandWord 8 w).toNat = encode i := by
    rw [BitVec.ofNat_toNat, BitVec.setWidth_eq, commandWord_of_decodeTableWord h]
  rw [step_of_command rfl (hcode ▸ decode_encode i), hcode]
  rfl

/-! ### A host write to `BUF` (R30; log 7) -/

/-- What a write of `n` bytes to `BUF` leaves: the bytes in their range, and all else as it was. -/
theorem writeBytes_frame {addr n : Nat} {bs : List Byte} (hn : bs.length = n) (s : State) :
    readBytes Config.env (writeBytes addr bs s) addr n = bs ∧
    KeepsBufOutside s (writeBytes addr bs s) addr n ∧ KeepsPacket s (writeBytes addr bs s) ∧
    KeepsOut s (writeBytes addr bs s) ∧ ∀ r, readReg (writeBytes addr bs s) r = readReg s r := by
  subst hn
  refine ⟨readBytes_writeBytes _ _ _ _, fun a ha => readBuf_writeBytes_outside _ _ ha,
    by simp [KeepsPacket], by simp [KeepsOut], fun r => ?_⟩
  cases r <;> rfl

/-! ### The reset event (R210) -/

theorem readReg_resetEvent (e : Env) (s : State) (r : Reg) :
    readReg (resetEvent e s) r = if r = .version then s.chip.version.toNat else 0 := by
  cases r <;> rfl

/-! ### Little-endian numbers (R14) -/

theorem fromLe_le16 (v : BitVec 16) : fromLe (le16 v) = v.toNat := by
  have := v.isLt
  simp only [le16, fromLe, BitVec.extractLsb'_toNat, Nat.shiftRight_eq_div_pow]
  omega

theorem fromLe_le64 (v : BitVec 64) : fromLe (le64 v) = v.toNat := by
  have := v.isLt
  simp only [le64, fromLe, BitVec.extractLsb'_toNat, Nat.shiftRight_eq_div_pow]
  omega

/-! ### The statements -/

/-- Settles O2: a code decodes to its command, and a byte that decodes to a command is its code. -/
theorem decodeInvertsEncode : Obligations.DecodeInvertsEncode :=
  ⟨fun i _ => decode_encode i, fun _ _ => eq_encode_of_decode⟩

/-- Settles O4, by the two cases of the queue. -/
theorem stepMakesTheNextHostMove : Obligations.StepMakesTheNextHostMove :=
  ⟨fun _ _ _ => step_of_moves, fun _ => step_of_no_moves⟩

/-- Settles O5: the next move is a write of `CMD` in both, of a word's own code in the second. -/
theorem stepRunsTheDecodedCommand : Obligations.StepRunsTheDecodedCommand :=
  ⟨fun _ _ _ _ => step_of_command, fun s _ _ => step_withFetchWord s⟩

/-- Settles O7: the bytes that have a cell are written, which are all of them inside `BUF`. -/
theorem hostPokeWritesItsBytes : Obligations.HostPokeWritesItsBytes := by
  refine fun addr bytes s => ⟨fun hin => ?_, fun hout => ?_⟩
  · exact ⟨_, congrArg Host.Outcome.next (pokeBytes_inside hin), writeBytes_frame rfl s⟩
  · have hlen : (bytes.take (s.chip.bufCap - addr)).length = s.chip.bufCap - addr := by
      rw [List.length_take]
      omega
    exact ⟨_, rfl, writeBytes_frame hlen s⟩

/-- Settles O8: each of these moves answers its own state, by the model's definition of it. -/
theorem ignoredWritesAndReadsChangeNothing : Obligations.IgnoredWritesAndReadsChangeNothing :=
  fun _ _ _ _ _ _ => ⟨rfl, rfl, rfl, rfl, rfl, rfl⟩

/-- Settles O9, by the totality of each move. -/
theorem noStepFaults : Obligations.NoStepFaults := ⟨hostMove_next, step_next⟩

/-- Settles O11: the state after a reset event with the moves and the draws of the old one. -/
theorem resetEventClearsEveryRegister : Obligations.ResetEventClearsEveryRegister := fun s =>
  ⟨_, rfl, readReg_resetEvent _ s, resetEvent_chip _ s, resetEvent_buf _ s, resetEvent_out _ s,
    resetEvent_moves _ s, resetEvent_draws _ s⟩

/-- Settles O26, error by error as the model's table gives them. -/
theorem errorCodesAndFields : Obligations.ErrorCodesAndFields :=
  fun _ _ _ _ _ => ⟨rfl, rfl, rfl, rfl, rfl, rfl, rfl, rfl, rfl⟩

/-- Settles O45, byte by byte. -/
theorem littleEndianRoundTrip : Obligations.LittleEndianRoundTrip := ⟨fromLe_le16, fromLe_le64⟩

end Sys2Proof.Machine

/-! PROOFS of the laws of stuffing that the spec derives (`41_primitives.md` section 4): unstuffing inverts
stuffing, the forms no stuffing makes, and the lengths. -/

namespace Sys2Proof.Machine

/-! ### `unstuff` on one block of each kind (R116) -/

theorem shortBlockCode_toNat {n : Nat} (h : n < blockMax) : (BitVec.ofNat 8 (n + 1)).toNat = n + 1 := by
  rw [BitVec.toNat_ofNat, Nat.mod_eq_of_lt (by simp only [blockMax] at h; omega)]

theorem shortBlockCode_ne_full {n : Nat} (h : n < blockMax) : BitVec.ofNat 8 (n + 1) ≠ 0xFF#8 := by
  intro hfull
  have hcode := shortBlockCode_toNat h
  rw [hfull] at hcode
  simp [blockMax] at hcode h
  omega

section
variable {run after : List Byte}

/-- A short block implies a zero behind it, unless the data ends there. -/
theorem unstuff_short_block (h0 : 0#8 ∉ run) (hl : run.length < blockMax) :
    unstuff (BitVec.ofNat 8 (run.length + 1) :: (run ++ after)) =
      (unstuff after).map fun out => run ++ (if after ≠ [] then [0#8] else []) ++ out := by
  rw [unstuff_block (shortBlockCode_ne_zero hl) (by rw [shortBlockCode_toNat hl, Nat.add_sub_cancel]),
    if_neg h0]
  simp only [shortBlockCode_ne_full hl, ne_eq, not_false_eq_true, true_and]

/-- A full block implies no zero. -/
theorem unstuff_full_block (h0 : 0#8 ∉ run) (hl : run.length = blockMax) :
    unstuff (0xFF#8 :: (run ++ after)) = (unstuff after).map (run ++ ·) := by
  rw [unstuff_block (by decide) hl, if_neg h0]
  simp

end

/-! ### Unstuffing inverts stuffing (R121) -/

theorem stuff_ne_nil (raw : List Byte) : stuff raw ≠ [] :=
  List.ne_nil_of_length_pos ((Nat.succ_pos _).trans_le (stuff_length_ge raw))

theorem unstuff_stuff (raw : List Byte) : unstuff (stuff raw) = some raw := by
  induction raw using block_induction with
  | run run h0 hl =>
    have h := unstuff_short_block (after := []) h0 hl
    simpa [stuff_run h0 hl, unstuff, unstuffLoop] using h
  | run_zero run after h0 hl ih =>
    rw [stuff_run_zero h0 hl, unstuff_short_block h0 hl, ih, if_pos (stuff_ne_nil after)]
    simp
  | full run after h0 hl ih =>
    by_cases ha : after = []
    · have h := unstuff_full_block (after := []) h0 hl
      simpa [ha, stuff_full_end h0 hl, unstuff, unstuffLoop] using h
    · rw [stuff_full_more h0 hl ha, unstuff_full_block h0 hl, ih]
      rfl

theorem stripTerm_append_zero (s : List Byte) : stripTerm (s ++ [0#8]) = s := by
  rw [stripTerm_concat, if_pos rfl]

/-- Bytes without a zero have no terminator to drop. -/
theorem stripTerm_of_zero_notMem {s : List Byte} (h : 0#8 ∉ s) : stripTerm s = s :=
  if_neg fun hlast => h (List.mem_of_getLast? hlast)

theorem stripTerm_stuff (raw : List Byte) : stripTerm (stuff raw) = stuff raw :=
  stripTerm_of_zero_notMem (zero_notMem_stuff raw)

/-! ### How long unstuffed data is (R119) -/

/-- Induction over data that unstuffs: nothing is left, or one block comes first. -/
theorem unstuff_some_induction {motive : List Byte → List Byte → Prop} (nil : motive [] [])
    (block : ∀ c blk after out, c ≠ 0#8 → blk.length = c.toNat - 1 → motive after out →
      motive (c :: (blk ++ after)) (blk ++ (if c ≠ 0xFF#8 ∧ after ≠ [] then [0#8] else []) ++ out))
    {s out : List Byte} (h : unstuff s = some out) : motive s out := by
  induction hn : s.length using Nat.strongRecOn generalizing s out with
  | ind n ih =>
    cases s with
    | nil => cases h; exact nil
    | cons c rest =>
      by_cases hc : c = 0#8
      · rw [hc, unstuff_zero_code] at h
        cases h
      by_cases hlen : rest.length < c.toNat - 1
      · rw [unstuff_past_end hlen] at h
        cases h
      have hblk : (rest.take (c.toNat - 1)).length = c.toNat - 1 := by
        rw [List.length_take]
        omega
      have hafter : (rest.drop (c.toNat - 1)).length < n := by
        rw [← hn, List.length_drop, List.length_cons]
        omega
      rw [← List.take_append_drop (c.toNat - 1) rest] at h ⊢
      rw [unstuff_block hc hblk] at h
      split at h
      · cases h
      obtain ⟨tail, htail, rfl⟩ := Option.map_eq_some_iff.mp h
      exact block c _ _ tail hc hblk (ih _ hafter htail rfl)

/-- Each block takes a code byte and gives a zero only where another block follows, so at least the last
code byte is saved. -/
theorem unstuff_length_le_pred {s out : List Byte} (h : unstuff s = some out) :
    out.length ≤ s.length - 1 := by
  refine unstuff_some_induction (motive := fun s out => out.length ≤ s.length - 1) le_rfl
    (fun c blk after out _ _ ih => ?_) h
  by_cases ha : after = []
  · simpa [ha] using ih
  · have hzero : (if c ≠ 0xFF#8 ∧ after ≠ [] then [0#8] else []).length ≤ 1 := by split <;> simp
    have hpos := List.length_pos_iff.mpr ha
    simp only [List.length_cons, List.length_append]
    omega

theorem unstuff_length_lt {s out : List Byte} (hne : s ≠ []) (h : unstuff s = some out) :
    out.length + 1 ≤ s.length := by
  have hpos := List.length_pos_iff.mpr hne
  have hle := unstuff_length_le_pred h
  omega

/-! ### Data with no run of 254 non-zero bytes (R122) -/

/-- Among any 254 consecutive bytes there is a zero. -/
def NoFullRun (raw : List Byte) : Prop := ∀ i, i + 254 ≤ raw.length → 0#8 ∈ (raw.drop i).take 254

/-- What follows a part of such data is such data. -/
theorem NoFullRun.of_append {front back : List Byte} (h : NoFullRun (front ++ back)) : NoFullRun back := by
  intro i hi
  have := h (front.length + i) (by rw [List.length_append]; omega)
  rwa [← List.drop_drop, List.drop_left] at this

/-- Such data has no full block, so only the last block costs a byte. -/
theorem stuff_length_of_noFullRun {raw : List Byte} (h : NoFullRun raw) :
    (stuff raw).length = raw.length + 1 := by
  induction raw using block_induction with
  | run run h0 hl => rw [stuff_run h0 hl, List.length_cons]
  | run_zero run after h0 hl ih =>
    have hafter : NoFullRun after := by
      refine NoFullRun.of_append (front := run ++ [0#8]) ?_
      simpa using h
    rw [stuff_run_zero h0 hl, List.length_cons, List.length_append, ih hafter, List.length_append,
      List.length_cons, Nat.add_assoc]
  | full run after h0 hl ih =>
    have hmem := h 0 (by rw [List.length_append, hl]; simp [blockMax])
    rw [List.drop_zero, ← show run.length = 254 from hl, List.take_left] at hmem
    exact absurd hmem h0

/-! ### The statements -/

/-- Settles O40, by induction over the blocks of the data; the terminator is the zero that is dropped. -/
theorem unstuffInvertsStuff : Obligations.UnstuffInvertsStuff := by
  refine fun raw => ⟨unstuff_stuff raw, ?_⟩
  rw [stripTerm_append_zero, unstuff_stuff]

/-- Settles O41: a full block implies no zero, whether an empty block or nothing follows it; `stuff` makes
the shorter form. -/
theorem nonCanonicalFormsUnstuff : Obligations.NonCanonicalFormsUnstuff := by
  refine ⟨fun d h0 hl => ⟨?_, ?_, ?_⟩, rfl, by decide⟩
  · have hlast : unstuff [0x01#8] = some [] := by decide
    rw [unstuff_full_block h0 hl, hlast, Option.map_some, List.append_nil]
  · rw [← stuff_full_end h0 hl, unstuff_stuff]
  · simp [stuff_full_end h0 hl]

/-- Settles O42: unstuffing saves the last code byte; where no run is full, stuffing costs it alone. -/
theorem stuffingLengthLaws : Obligations.StuffingLengthLaws :=
  ⟨fun _ _ => unstuff_length_lt, fun _ _ => stuff_length_of_noFullRun⟩

end Sys2Proof.Machine

/-! PROOFS of the properties of frames that the spec derives (`42_framer.md` section 4, `43_deframer.md`
section 3): the shape of a wire frame, the round trip, the gates of the deframer and what it lets through. -/

namespace Sys2Proof.Machine

/-! ### Stuffed frames reach the parse (R144) -/

section
variable (e : Env) (c : Chip) (f : List Byte)

/-- What was stuffed is what the checks see. -/
theorem decodeFrame_stuff : decodeFrame e c (stuff f) = parseFrame e c f :=
  decodeFrame_of_some (by rw [stripTerm_stuff, unstuff_stuff])

/-- So is what was stuffed and terminated. -/
theorem decodeFrame_stuff_terminated : decodeFrame e c (stuff f ++ [0#8]) = parseFrame e c f :=
  decodeFrame_of_some (by rw [stripTerm_append_zero, unstuff_stuff])

end

/-! ### A body and its checksum (R130, R149) -/

section
variable (body : List Byte) (x : BitVec 16)

theorem length_body_le16 : (body ++ le16 x).length = body.length + 2 := List.length_append

/-- The covered bytes of a frame. -/
theorem take_body_le16 : (body ++ le16 x).take ((body ++ le16 x).length - 2) = body := by
  rw [length_body_le16, Nat.add_sub_cancel, List.take_left]

theorem embeddedChecksum_body_le16 : embeddedChecksum (body ++ le16 x) = x := by
  refine embeddedChecksum_eq ?_
  rw [length_body_le16, Nat.add_sub_cancel, List.drop_left, fromLe_le16]

end

theorem frameBody_length (c : Chip) (p : Packet) : (frameBody c p).length = 11 + p.payload.length := by
  simp [frameBody, le64]
  omega

/-! ### The packet a raw frame carries (R130, R152) -/

section
variable (e : Env) (c : Chip) (p : Packet)

theorem frameRaw_head : frameRaw e c p = c.version :: BitVec.ofNat 8 p.payload.length ::
    controlByte p.kind p.dev :: (le64 p.ts ++ (p.payload ++ le16 (e.crc16 (frameBody c p)))) := by
  simp [frameRaw, frameBody]

theorem frameRaw_lengthByte (hp : p.payload.length ≤ 255) :
    ((frameRaw e c p).getD 1 0#8).toNat = (frameRaw e c p).length - 13 := by
  rw [frameRaw_length, overhead, Nat.add_sub_cancel_left, frameRaw_head]
  exact Nat.mod_eq_of_lt (Nat.lt_succ_of_le hp)

theorem frameRaw_ts_bytes : ((frameRaw e c p).drop 3).take 8 = le64 p.ts := by
  rw [frameRaw_head]
  exact List.take_left (l₁ := le64 p.ts)

theorem carriedPacket_frameRaw_ts : (carriedPacket (frameRaw e c p)).ts = p.ts := by
  refine BitVec.eq_of_toNat_eq ?_
  rw [carriedPacket_ts_toNat, frameRaw_ts_bytes, fromLe_le64]

theorem carriedPacket_frameRaw_payload (hp : p.payload.length ≤ 255) :
    (carriedPacket (frameRaw e c p)).payload = p.payload := by
  rw [carriedPacket_payload (frameRaw_lengthByte e c p hp), frameRaw, take_body_le16, frameBody]
  rfl

theorem carriedPacket_frameRaw (hp : p.payload.length ≤ 255) : carriedPacket (frameRaw e c p) = p := by
  have hkind : (carriedPacket (frameRaw e c p)).kind = p.kind := by
    rw [carriedPacket, frameRaw_head]
    exact controlKind_append p.kind p.dev 0#2
  have hdev : (carriedPacket (frameRaw e c p)).dev = p.dev := by
    rw [carriedPacket, frameRaw_head]
    exact controlDev_append p.kind p.dev 0#2
  exact Packet.mk.injEq .. |>.mpr
    ⟨hkind, hdev, carriedPacket_frameRaw_ts e c p, carriedPacket_frameRaw_payload e c p hp⟩

/-- The raw frame of a valid packet passes every check, as that packet. -/
theorem parseFrame_frameRaw (h : ValidPacket c p) : parseFrame e c (frameRaw e c p) = .ok p := by
  obtain ⟨hp, hdev⟩ := h
  have hcarried := carriedPacket_frameRaw e c p hp
  refine parseFrame_eq_ok_iff.mpr ⟨?_, ?_, ?_, frameRaw_lengthByte e c p hp, ?_, hcarried⟩
  · rw [frameRaw_length]
    exact Nat.le_add_right ..
  · rw [frameRaw_head]
    rfl
  · rw [frameRaw, take_body_le16, embeddedChecksum_body_le16]
  · rwa [hcarried]

end

/-! ### What decodes (R155) -/

/-- A frame that is let through is as long as its payload says. -/
theorem parseFrame_ok_length {e : Env} {c : Chip} {f : List Byte} {p : Packet}
    (h : parseFrame e c f = .ok p) : f.length = 13 + p.payload.length := by
  obtain ⟨hm, -, -, hn, -, rfl⟩ := parseFrame_eq_ok_iff.mp h
  rw [carriedPacket_payload hn, List.length_drop, List.length_take]
  omega

theorem parseFrame_ok_valid {e : Env} {c : Chip} {f : List Byte} {p : Packet}
    (h : parseFrame e c f = .ok p) : ValidPacket c p := by
  obtain ⟨-, -, -, -, hdev, rfl⟩ := parseFrame_eq_ok_iff.mp h
  exact ⟨carriedPacket_payload_length_le f, hdev⟩

theorem decodeFrame_ok_unstuffs {e : Env} {c : Chip} {s : List Byte} {p : Packet}
    (h : decodeFrame e c s = .ok p) : ∃ f, unstuff (stripTerm s) = some f ∧ parseFrame e c f = .ok p := by
  cases hu : unstuff (stripTerm s) with
  | none => cases (decodeFrame_of_none hu).symm.trans h
  | some f => exact ⟨f, rfl, (decodeFrame_of_some hu).symm.trans h⟩

/-! ### The shape of a wire frame (R136, R137) -/

section
variable (e : Env) (c : Chip) (p : Packet)

/-- At most 268 bytes begin at most two blocks. -/
theorem wireFrame_length_bounds (hp : p.payload.length ≤ 255) :
    15 ≤ (wireFrame e c p).length ∧ (wireFrame e c p).length ≤ 271 := by
  have hge := stuff_length_ge (frameRaw e c p)
  have hle := stuff_length_le (frameRaw e c p)
  rw [frameRaw_length] at hge hle
  rw [stuffMax_of_pos (by simp only [overhead]; omega)] at hle
  rw [wireFrame_length]
  simp only [overhead] at hge hle
  omega

/-- Fewer than 254 bytes make one block's worth of overhead, whatever they are. -/
theorem wireFrame_length_of_short (hp : p.payload.length ≤ 240) :
    (wireFrame e c p).length = 13 + p.payload.length + 2 := by
  have hge := stuff_length_ge (frameRaw e c p)
  have hle := stuff_length_le (frameRaw e c p)
  rw [frameRaw_length] at hge hle
  rw [stuffMax_of_lt (by simp only [overhead, blockMax]; omega)] at hle
  rw [wireFrame_length, Nat.le_antisymm hle hge]

end

/-! ### The statements -/

/-- Settles O47: what was stuffed is what is parsed, and the raw frame of a valid packet passes every check. -/
theorem frameRoundTrip : Obligations.FrameRoundTrip := by
  intro e c p h
  rw [decodeFrame_stuff_terminated, decodeFrame_stuff]
  exact ⟨parseFrame_frameRaw e c p h, parseFrame_frameRaw e c p h⟩

/-- Settles O48, from the checks that a decoded frame has passed. -/
theorem decodedPacketsAreValid : Obligations.DecodedPacketsAreValid := by
  intro e c s p h
  obtain ⟨f, hf, hparse⟩ := decodeFrame_ok_unstuffs h
  have hvalid := parseFrame_ok_valid hparse
  have hlen := parseFrame_ok_length hparse
  have ⟨hpayload, _⟩ := hvalid
  exact ⟨hvalid, f, hf, hlen, by omega⟩

/-- Settles O49: the version is checked before the checksum. -/
theorem versionGate : Obligations.VersionGate := by
  intro e c p v hv
  rw [decodeFrame_stuff_terminated]
  refine parseFrame_of_version_ne ?_ hv
  rw [List.length_cons, List.length_tail, frameRaw_length, overhead]
  omega

/-- Settles O50: the changed body is covered by the old checksum, which is not its own. -/
theorem changedBytesFailTheChecksum : Obligations.ChangedBytesFailTheChecksum := by
  intro e c p body _ hlen hhead hcrc
  obtain ⟨tail, rfl⟩ := List.head?_eq_some_iff.mp hhead
  have hcovered := take_body_le16 (c.version :: tail) (e.crc16 (frameBody c p))
  have hembedded := embeddedChecksum_body_le16 (c.version :: tail) (e.crc16 (frameBody c p))
  have hlong : 13 ≤ ((c.version :: tail) ++ le16 (e.crc16 (frameBody c p))).length := by
    rw [length_body_le16, hlen, frameBody_length]
    omega
  rw [decodeFrame_stuff_terminated, parseFrame_of_checksum_ne hlong rfl (by rwa [hcovered, hembedded]),
    hcovered, hembedded]

/-- Settles O51: stuffed bytes have no zero, and their length lies between the bounds of stuffing. -/
theorem wireFrameShape : Obligations.WireFrameShape := by
  intro e c p hp
  obtain ⟨hge, hle⟩ := wireFrame_length_bounds e c p hp
  exact ⟨⟨_, rfl, zero_notMem_stuff _⟩, hge, hle, frameRaw_wireFrame_length_le e c p,
    wireFrame_length_of_short e c p⟩

end Sys2Proof.Machine

/-! PROOFS of the laws of streams that the spec derives (`44_stream_sync.md` section 3): degenerate calls,
progress and bounds, streams of valid frames, a call that goes on where another stopped. -/

namespace Sys2Proof.Machine

/-! ### A frame that comes first, seen from the result (R167, R168) -/

section
variable {e : Env} {c : Chip} {cap : Nat} {frame rest : List Byte}

theorem decodeStream_frame_eq_ok {cur : Nat} {pkts : List Packet} (h0 : 0#8 ∉ frame)
    (h : decodeStream e c (frame ++ 0#8 :: rest) (cap + 1) = .ok cur pkts) :
    ∃ p cur' pkts', decodeFrame e c frame = .ok p ∧ decodeStream e c rest cap = .ok cur' pkts' ∧
      cur = frame.length + 1 + cur' ∧ pkts = p :: pkts' := by
  cases hf : decodeFrame e c frame with
  | error err => cases (decodeStream_frame_error h0 hf).symm.trans h
  | ok p =>
    rw [decodeStream_frame_ok h0 hf] at h
    cases hr : decodeStream e c rest cap with
    | err err z k => rw [hr] at h; cases h
    | ok cur' pkts' => rw [hr] at h; cases h; exact ⟨p, cur', pkts', rfl, rfl, rfl, rfl⟩

theorem decodeStream_frame_eq_err {err : CmdError} {z k : Nat} (h0 : 0#8 ∉ frame)
    (h : decodeStream e c (frame ++ 0#8 :: rest) (cap + 1) = .err err z k) :
    (decodeFrame e c frame = .error err ∧ z = frame.length ∧ k = 0) ∨
    ∃ z' k', decodeStream e c rest cap = .err err z' k' ∧ z = frame.length + 1 + z' ∧ k = k' + 1 := by
  cases hf : decodeFrame e c frame with
  | error err' => cases (decodeStream_frame_error h0 hf).symm.trans h; exact .inl ⟨rfl, rfl, rfl⟩
  | ok p =>
    rw [decodeStream_frame_ok h0 hf] at h
    cases hr : decodeStream e c rest cap with
    | err err' z' k' => rw [hr] at h; cases h; exact .inr ⟨z', k', rfl, rfl, rfl⟩
    | ok cur pkts => rw [hr] at h; cases h

end

/-! ### Streams that fail (R167, R173) -/

/-- Induction over a stream that fails: the first frame is bad, or the stream behind it fails. -/
theorem decodeStream_err_induction {e : Env} {c : Chip} {err : CmdError}
    {motive : Nat → List Byte → Nat → Nat → Prop}
    (bad : ∀ cap frame rest, decodeFrame e c frame = .error err →
      motive (cap + 1) (frame ++ 0#8 :: rest) frame.length 0)
    (later : ∀ cap frame rest z k, motive cap rest z k →
      motive (cap + 1) (frame ++ 0#8 :: rest) (frame.length + 1 + z) (k + 1))
    {cap : Nat} {bytes : List Byte} {z k : Nat} (h : decodeStream e c bytes cap = .err err z k) :
    motive cap bytes z k := by
  induction cap, bytes using frame_induction generalizing z k with
  | no_slot bytes => cases h
  | no_zero cap bytes h0 => cases (decodeStream_no_zero h0).symm.trans h
  | frame cap frame rest h0 ih =>
    obtain ⟨hf, rfl, rfl⟩ | ⟨z', k', hr, rfl, rfl⟩ := decodeStream_frame_eq_err h0 h
    · exact bad cap frame rest hf
    · exact later cap frame rest z' k' (ih hr)

/-- The byte at an index counted on from behind a delimiter. -/
theorem getElem?_frame_add (frame rest : List Byte) (i : Nat) :
    (frame ++ 0#8 :: rest)[frame.length + 1 + i]? = rest[i]? := by
  rw [Nat.add_assoc, List.getElem?_append_right (Nat.le_add_right ..), Nat.add_sub_cancel_left,
    Nat.add_comm 1 i, List.getElem?_cons_succ]

theorem getElem?_frame_length (frame rest : List Byte) :
    (frame ++ 0#8 :: rest)[frame.length]? = some 0#8 := by
  rw [List.getElem?_append_right le_rfl, Nat.sub_self, List.getElem?_cons_zero]

section
variable {e : Env} {c : Chip} {cap : Nat} {bytes : List Byte}

theorem decodeStream_err_frames_lt {err : CmdError} {z k : Nat}
    (h : decodeStream e c bytes cap = .err err z k) : k < cap := by
  exact decodeStream_err_induction (motive := fun cap _ _ k => k < cap)
    (fun _ _ _ _ => Nat.succ_pos _) (fun _ _ _ _ _ ih => Nat.succ_lt_succ ih) h

theorem decodeStream_err_delimiter {err : CmdError} {z k : Nat}
    (h : decodeStream e c bytes cap = .err err z k) : bytes[z]? = some 0#8 := by
  exact decodeStream_err_induction (motive := fun _ bytes z _ => bytes[z]? = some 0#8)
    (fun _ frame rest _ => getElem?_frame_length frame rest)
    (fun _ frame rest z _ ih => (getElem?_frame_add frame rest z).trans ih) h

/-- The error of a stream is the error of one of its frames. -/
theorem decodeStream_err_frame {err : CmdError} {z k : Nat}
    (h : decodeStream e c bytes cap = .err err z k) : ∃ frame, decodeFrame e c frame = .error err := by
  exact decodeStream_err_induction (motive := fun _ _ _ _ => ∃ frame, decodeFrame e c frame = .error err)
    (fun _ frame _ hf => ⟨frame, hf⟩) (fun _ _ _ _ _ ih => ih) h

/-! ### Streams that decode: one zero byte for each packet, and the cursor behind one (R179) -/

theorem decodeStream_ok_packets_le_count {cur : Nat} {pkts : List Packet}
    (h : decodeStream e c bytes cap = .ok cur pkts) : pkts.length ≤ bytes.count 0#8 := by
  refine decodeStream_ok_induction (motive := fun _ bytes _ pkts => pkts.length ≤ bytes.count 0#8)
    (fun _ _ => Nat.zero_le _) (fun _ frame rest _ _ _ _ ih => ?_) h
  rw [List.count_append, List.count_cons_self, List.length_cons]
  omega

theorem decodeStream_ok_cursor {cur : Nat} {pkts : List Packet}
    (h : decodeStream e c bytes cap = .ok cur pkts) : cur = 0 ∨ bytes[cur - 1]? = some 0#8 := by
  refine decodeStream_ok_induction (motive := fun _ bytes cur _ => cur = 0 ∨ bytes[cur - 1]? = some 0#8)
    (fun _ _ => .inl rfl) (fun _ frame rest _ cur _ _ ih => .inr ?_) h
  cases cur with
  | zero => exact getElem?_frame_length frame rest
  | succ cur => exact (getElem?_frame_add frame rest cur).trans (ih.resolve_left (Nat.succ_ne_zero _))

end

/-! ### A stream of valid frames (R180, R181) -/

theorem decodeFrame_stuff_frameRaw (e : Env) {c : Chip} {p : Packet} (h : ValidPacket c p) :
    decodeFrame e c (stuff (frameRaw e c p)) = .ok p :=
  (decodeFrame_stuff e c _).trans (parseFrame_frameRaw e c p h)

/-- The wire frame of a valid packet takes a slot, and the stream behind it goes on. -/
theorem decodeStream_wireFrame (e : Env) {c : Chip} {p : Packet} (h : ValidPacket c p)
    (cap : Nat) (rest : List Byte) : decodeStream e c (wireFrame e c p ++ rest) (cap + 1) =
      consPacket p ((decodeStream e c rest cap).advance (wireFrame e c p).length) := by
  rw [wireFrame_length, wireFrame, List.append_assoc]
  exact decodeStream_frame_ok (zero_notMem_stuff _) (decodeFrame_stuff_frameRaw e h)

theorem decodeStream_wireFrames (e : Env) {c : Chip} {ps : List Packet} {rest : List Byte}
    (hps : ∀ p ∈ ps, ValidPacket c p) (hrest : 0#8 ∉ rest) (cap : Nat) :
    decodeStream e c ((ps.map (wireFrame e c)).flatten ++ rest) cap =
      .ok ((ps.take cap).map (wireFrame e c)).flatten.length (ps.take cap) := by
  induction ps generalizing cap with
  | nil => simpa using decodeStream_no_zero hrest
  | cons p ps ih =>
    obtain ⟨hp, hps⟩ := List.forall_mem_cons.mp hps
    cases cap with
    | zero => rfl
    | succ cap =>
      rw [List.map_cons, List.flatten_cons, List.append_assoc, decodeStream_wireFrame e hp, ih hps cap,
        List.take_succ_cons, List.map_cons, List.flatten_cons, List.length_append]
      rfl

/-! ### A call that goes on where another stopped (R174, R182) -/

/-- The result of a call on the remainder, counted on from `cur` bytes and the packets before it. -/
def StreamResult.resume (cur : Nat) (pkts : List Packet) : StreamResult → StreamResult
  | .ok cur' pkts' => .ok (cur + cur') (pkts ++ pkts')
  | .err e z k => .err e (cur + z) (pkts.length + k)

theorem StreamResult.resume_zero (r : StreamResult) : r.resume 0 [] = r := by
  cases r <;> simp [StreamResult.resume]

/-- A frame in front of both calls is consumed by the first. -/
theorem StreamResult.consPacket_advance_resume (n cur : Nat) (p : Packet) (pkts : List Packet)
    (r : StreamResult) :
    consPacket p ((r.resume cur pkts).advance n) = r.resume (n + cur) (p :: pkts) := by
  cases r <;> simp [StreamResult.resume, StreamResult.advance, consPacket, Nat.add_assoc,
    Nat.add_comm, Nat.add_left_comm]

section
variable {e : Env} {c : Chip} {cap : Nat} {bytes : List Byte}

theorem drop_frame_add (frame rest : List Byte) (n : Nat) :
    (frame ++ 0#8 :: rest).drop (frame.length + 1 + n) = rest.drop n := by
  rw [Nat.add_assoc, ← List.drop_drop, List.drop_left, Nat.add_comm 1 n, List.drop_succ_cons]

/-- More slots change nothing about a stream that fails. -/
theorem decodeStream_add_of_err {err : CmdError} {z k : Nat} (b : Nat)
    (h : decodeStream e c bytes cap = .err err z k) :
    decodeStream e c bytes (cap + b) = .err err z k := by
  induction cap, bytes using frame_induction generalizing z k with
  | no_slot bytes => cases h
  | no_zero cap bytes h0 => cases (decodeStream_no_zero h0).symm.trans h
  | frame cap frame rest h0 ih =>
    rw [Nat.add_right_comm]
    cases hf : decodeFrame e c frame with
    | error err' =>
      rw [decodeStream_frame_error h0 hf] at h ⊢
      exact h
    | ok p =>
      obtain ⟨hbad, -⟩ | ⟨z', k', hr, rfl, rfl⟩ := decodeStream_frame_eq_err h0 h
      · cases hbad.symm.trans hf
      · rw [decodeStream_frame_ok h0 hf, ih hr]
        rfl

/-- More slots are filled from the remainder. -/
theorem decodeStream_add_of_ok {cur : Nat} {pkts : List Packet} (b : Nat)
    (h : decodeStream e c bytes cap = .ok cur pkts) :
    decodeStream e c bytes (cap + b) = (decodeStream e c (bytes.drop cur) b).resume cur pkts := by
  induction cap, bytes using frame_induction generalizing cur pkts with
  | no_slot bytes =>
    cases h
    rw [Nat.zero_add, StreamResult.resume_zero, List.drop_zero]
  | no_zero cap bytes h0 =>
    cases (decodeStream_no_zero h0).symm.trans h
    rw [StreamResult.resume_zero, List.drop_zero, decodeStream_no_zero h0, decodeStream_no_zero h0]
  | frame cap frame rest h0 ih =>
    obtain ⟨p, cur', pkts', hf, hr, rfl, rfl⟩ := decodeStream_frame_eq_ok h0 h
    rw [Nat.add_right_comm, decodeStream_frame_ok h0 hf, ih hr, drop_frame_add,
      StreamResult.consPacket_advance_resume]

/-- With a slot for every packet of the first call, bytes that come later are decoded from its remainder. -/
theorem decodeStream_append_of_ok {cur : Nat} {pkts : List Packet} (new : List Byte) (b : Nat)
    (h : decodeStream e c bytes cap = .ok cur pkts) : decodeStream e c (bytes ++ new) (pkts.length + b) =
      (decodeStream e c (bytes.drop cur ++ new) b).resume cur pkts := by
  induction cap, bytes using frame_induction generalizing cur pkts with
  | no_slot bytes =>
    cases h
    rw [List.length_nil, Nat.zero_add, StreamResult.resume_zero, List.drop_zero]
  | no_zero cap bytes h0 =>
    cases (decodeStream_no_zero h0).symm.trans h
    rw [List.length_nil, Nat.zero_add, StreamResult.resume_zero, List.drop_zero]
  | frame cap frame rest h0 ih =>
    obtain ⟨p, cur', pkts', hf, hr, rfl, rfl⟩ := decodeStream_frame_eq_ok h0 h
    rw [List.length_cons, Nat.add_right_comm, List.append_assoc, List.cons_append,
      decodeStream_frame_ok h0 hf, ih hr, drop_frame_add, StreamResult.consPacket_advance_resume]

end

/-! ### The statements -/

/-- Settles O53: the empty frame is too short. -/
theorem streamDegenerateCalls : Obligations.StreamDegenerateCalls := by
  refine fun e c bytes cap => ⟨?_, decodeStream_no_slot e c bytes, decodeStream_no_zero⟩
  have hempty : decodeFrame e c [] = .error (.bufferTooShort 0) :=
    (decodeFrame_of_some rfl).trans (parseFrame_of_short (f := []) (by decide))
  exact decodeStream_frame_error List.not_mem_nil hempty

/-- Settles O54, by induction over the good frames of a stream and up to its bad one. -/
theorem streamProgress : Obligations.StreamProgress := fun _ _ _ _ =>
  ⟨fun _ _ h => ⟨decodeStream_ok_packets_le h, decodeStream_ok_packets_le_count h,
    decodeStream_ok_consumed_le h, decodeStream_ok_cursor h⟩,
    fun _ _ _ h => ⟨decodeStream_err_frames_lt h, decodeStream_err_delimiter h⟩⟩

/-- Settles O55, by induction over the packets, each of which takes a slot. -/
theorem streamDecodesConcatenatedFrames : Obligations.StreamDecodesConcatenatedFrames :=
  fun e _ _ _ cap hps hrest => decodeStream_wireFrames e hps hrest cap

/-- Settles O56: the call with more slots goes on where the other stopped. -/
theorem streamSplitsAtACapacity : Obligations.StreamSplitsAtACapacity := by
  refine fun e c bytes a b => ⟨fun err z k h => decodeStream_add_of_err b h, fun cur pkts h => ?_⟩
  rw [decodeStream_add_of_ok b h]
  refine ⟨fun cur' pkts' hb => ?_, fun err z k hb => ?_⟩ <;> rw [hb] <;> rfl

/-- Settles O57: the call on both deliveries goes on where the first one stopped. -/
theorem streamGoesOnAcrossDeliveries : Obligations.StreamGoesOnAcrossDeliveries := by
  intro e c bytes new cap b cur pkts h cur' pkts' hb
  have hcur := decodeStream_ok_consumed_le h
  refine ⟨?_, ?_⟩
  · rw [decodeStream_append_of_ok new b h, hb]
    rfl
  · rw [← List.drop_drop, List.drop_append_of_le_length hcur]

end Sys2Proof.Machine

/-! PROOFS of the statements about the whole machine (`10_state.md`, `60_exceptions.md`): what each command
can leave, said once; from it what a failed command keeps, who writes `OUT` and the packet register, and the
invariant of every step. -/

namespace Sys2Proof.Machine

/-! ### The errors of frames (R187 to R192) -/

/-- An error that a bad frame ends with: codes 1 to 6, so no operand or size error (R186). -/
def isFrameError (err : CmdError) : Bool := (errorCode err).toNat ≤ 6

theorem parseFrame_frameError {e : Env} {c : Chip} {f : List Byte} {err : CmdError}
    (h : parseFrame e c f = .error err) : isFrameError err = true := by
  by_cases hm : 13 ≤ f.length
  · by_cases hv : f.getD 0 0#8 = c.version
    · by_cases hx : e.crc16 (f.take (f.length - 2)) = embeddedChecksum f
      · rw [parseFrame_of_intact hm hv hx] at h
        split_ifs at h <;> cases h <;> rfl
      · cases (parseFrame_of_checksum_ne hm hv hx).symm.trans h
        rfl
    · cases (parseFrame_of_version_ne hm hv).symm.trans h
      rfl
  · cases (parseFrame_of_short (not_le.mp hm)).symm.trans h
    rfl

theorem decodeFrame_frameError {e : Env} {c : Chip} {s : List Byte} {err : CmdError}
    (h : decodeFrame e c s = .error err) : isFrameError err = true := by
  cases hu : unstuff (stripTerm s) with
  | none => cases (decodeFrame_of_none hu).symm.trans h; rfl
  | some f => exact parseFrame_frameError ((decodeFrame_of_some hu).symm.trans h)

theorem decodeStream_frameError {e : Env} {c : Chip} {bytes : List Byte} {cap z k : Nat} {err : CmdError}
    (h : decodeStream e c bytes cap = .err err z k) : isFrameError err = true := by
  obtain ⟨frame, hf⟩ := decodeStream_err_frame h
  exact decodeFrame_frameError hf

/-! ### What each command can leave -/

/-- What command `i` can leave of state `s`, with what bounds its writes. -/
inductive Effect (s : State) : Instr → State → Prop
  /-- An operand, size or device check failed: the error, and nothing else. -/
  | endedEarly (i : Instr) (err : CmdError) : Effect s i (rejected err s)
  /-- A query answered in `R_VAL` (`DEVCHK`: 0). -/
  | answered {i : Instr} (v : Nat) (hi : i = .devchk ∨ i = .crc16 ∨ i = .encsize) :
    Effect s i (setVal v (clearResults s))
  /-- The payload was loaded. -/
  | loaded (bs : List Byte) : Effect s .pload (loadPayload Config.env bs (clearResults s))
  /-- A slice inside `BUF` was filled. -/
  | filled {i : Instr} {off n : Nat} {bs : List Byte} (hi : i = .stuff ∨ i = .unstuff)
    (hin : off + n ≤ s.chip.bufCap) (hbs : bs.length ≤ n) : Effect s i (sliceFilled Config.env off n bs s)
  /-- Both frames were written into a slice A that holds them. -/
  | encoded (hin : s.aOff.toNat + s.aLen.toNat ≤ s.chip.bufCap)
    (hl : encSize s.pkPlen.toNat ≤ s.aLen.toNat) : Effect s .encode (encodeDone Config.env s)
  /-- The frame in slice A was bad, and its bytes are `ANY`. -/
  | spoiled {i : Instr} {err : CmdError} (hi : i = .unstuff ∨ i = .decode1) (herr : isFrameError err = true)
    (hin : s.aOff.toNat + s.aLen.toNat ≤ s.chip.bufCap) :
    Effect s i (raise err (scramble Config.env s.aOff.toNat s.aLen.toNat (clearResults s)))
  /-- The frame in slice A was decoded. -/
  | decoded (p : Packet) (hin : s.aOff.toNat + s.aLen.toNat ≤ s.chip.bufCap) : Effect s .decode1
    (setPacket Config.env p (scramble Config.env s.aOff.toNat s.aLen.toNat (clearResults s)))
  /-- The stream in slice A was decoded. -/
  | streamed {cur : Nat} {pkts : List Packet} (hin : s.aOff.toNat + s.aLen.toNat ≤ s.chip.bufCap)
    (hcap : s.outCap.toNat ≤ s.chip.outSlots)
    (hok : decodeStream Config.env s.chip (sliceA Config.env s) s.outCap.toNat = .ok cur pkts) :
    Effect s .decodes (decodesDone Config.env s cur pkts)
  /-- The stream in slice A had a bad frame. -/
  | aborted {err : CmdError} {z k : Nat} (hin : s.aOff.toNat + s.aLen.toNat ≤ s.chip.bufCap)
    (hcap : s.outCap.toNat ≤ s.chip.outSlots)
    (herr : decodeStream Config.env s.chip (sliceA Config.env s) s.outCap.toNat = .err err z k) :
    Effect s .decodes (decodesFailed Config.env s err z)

section
variable (s : State)

theorem pload_effect : Effect s .pload (pload Config.env s) := by
  obtain ⟨-, h⟩ | ⟨-, ⟨-, h⟩ | ⟨-, h⟩⟩ := pload_cases Config.env s <;> rw [h]
  · exact .endedEarly ..
  · exact .endedEarly ..
  · exact .loaded _

theorem devchk_effect : Effect s .devchk (devchk s) := by
  obtain ⟨-, h⟩ | ⟨-, h⟩ := devchk_cases s <;> rw [h]
  · exact .endedEarly ..
  · exact .answered 0 (.inl rfl)

theorem crc16Cmd_effect : Effect s .crc16 (crc16Cmd Config.env s) := by
  obtain ⟨-, h⟩ | ⟨-, h⟩ := crc16Cmd_cases Config.env s <;> rw [h]
  · exact .endedEarly ..
  · exact .answered _ (.inr (.inl rfl))

theorem stuffCmd_effect : Effect s .stuff (stuffCmd Config.env s) := by
  obtain ⟨-, h⟩ | ⟨-, ⟨-, h⟩ | ⟨hb, ⟨-, h⟩ | ⟨-, ⟨-, h⟩ | ⟨hfits, h⟩⟩⟩⟩ := stuffCmd_cases Config.env s <;>
    rw [h]
  · exact .endedEarly ..
  · exact .endedEarly ..
  · exact .endedEarly ..
  · exact .endedEarly ..
  · have hlen := stuff_length_le (sliceA Config.env s)
    rw [sliceA_length] at hlen
    exact .filled (.inl rfl) hb (hlen.trans hfits)

theorem unstuffCmd_effect : Effect s .unstuff (unstuffCmd Config.env s) := by
  obtain ⟨-, h⟩ | ⟨ha, ⟨-, h⟩ | ⟨r, hr, h⟩⟩ := unstuffCmd_cases Config.env s <;> rw [h]
  · exact .endedEarly ..
  · exact .spoiled (.inl rfl) rfl ha
  · exact .filled (.inr rfl) ha (unstuff_sliceA_length_le hr)

theorem encodeCmd_effect : Effect s .encode (encodeCmd Config.env s) := by
  obtain ⟨-, h⟩ | ⟨ha, ⟨-, h⟩ | ⟨-, ⟨-, h⟩ | ⟨hfits, h⟩⟩⟩ := encodeCmd_cases Config.env s <;> rw [h]
  · exact .endedEarly ..
  · exact .endedEarly ..
  · exact .endedEarly ..
  · exact .encoded ha hfits

theorem decode1Cmd_effect : Effect s .decode1 (decode1Cmd Config.env s) := by
  obtain ⟨-, h⟩ | ⟨ha, ⟨err, herr, h⟩ | ⟨p, -, h⟩⟩ := decode1Cmd_cases Config.env s <;> rw [h]
  · exact .endedEarly ..
  · exact .spoiled (.inr rfl) (decodeFrame_frameError herr) ha
  · exact .decoded p ha

theorem decodesCmd_effect : Effect s .decodes (decodesCmd Config.env s) := by
  obtain ⟨-, h⟩ | ⟨ha, ⟨-, h⟩ | ⟨hcap, ⟨err, z, k, herr, h⟩ | ⟨cur, pkts, hok, h⟩⟩⟩ :=
    decodesCmd_cases Config.env s <;> rw [h]
  · exact .endedEarly ..
  · exact .endedEarly ..
  · exact .aborted ha hcap herr
  · exact .streamed ha hcap hok

end

/-- Every command leaves one of these effects. -/
theorem effect_of_exec {i : Instr} {s t : State} (h : exec i s = .next t) : Effect s i t := by
  cases i with
  | pload => cases h; exact pload_effect s
  | devchk => cases h; exact devchk_effect s
  | crc16 => cases h; exact crc16Cmd_effect s
  | stuff => cases h; exact stuffCmd_effect s
  | unstuff => cases h; exact unstuffCmd_effect s
  | encsize => cases h; exact .answered _ (.inr (.inr rfl))
  | encode => cases h; exact encodeCmd_effect s
  | decode1 => cases h; exact decode1Cmd_effect s
  | decodes => cases h; exact decodesCmd_effect s

/-! ### What a failed command keeps (R198) -/

/-- A frame error is none of the errors that keep all memory. -/
theorem not_operand_or_size_of_frameError {err : CmdError} (h : isFrameError err = true) :
    ¬ (errorCode err = 15#8 ∨ errorCode err = 7#8 ∨ errorCode err = 8#8) := by
  rintro (hcode | hcode | hcode) <;> rw [isFrameError, hcode] at h <;> exact absurd h (by decide)

/-- A command that failed was rejected, or met a bad frame. -/
theorem Effect.failed {i : Instr} {s t : State} (h : Effect s i t) (ht : t.status ≠ 0#8) :
    (∃ err, t = rejected err s) ∨
    (KeepsPacket s t ∧ ∃ err, isFrameError err = true ∧ t.status = errorCode err) := by
  cases h with
  | endedEarly _ err => exact .inl ⟨err, rfl⟩
  | spoiled _ herr _ => exact .inr ⟨by simp [KeepsPacket], _, herr, rfl⟩
  | aborted _ _ herr =>
    exact .inr ⟨decodesFailed_keepsPacket _ _, _, decodeStream_frameError herr, rfl⟩
  | _ => exact absurd rfl ht

theorem Effect.failed_keeps {i : Instr} {s t : State} (h : Effect s i t) (ht : t.status ≠ 0#8) :
    KeepsPacket s t ∧
      ((t.status = 15#8 ∨ t.status = 7#8 ∨ t.status = 8#8) → KeepsBuf s t ∧ KeepsOut s t) := by
  obtain ⟨err, rfl⟩ | ⟨hpacket, err, herr, hcode⟩ := h.failed ht
  · obtain ⟨-, hpacket, hmemory⟩ := rejected_keepsAllElse err s
    exact ⟨hpacket, fun _ => hmemory⟩
  · exact ⟨hpacket, fun hstatus => absurd (hcode ▸ hstatus) (not_operand_or_size_of_frameError herr)⟩

/-! ### Who writes `OUT` and the packet register (R28, R31) -/

section
variable {i : Instr} {s t : State}

theorem Effect.keepsOut (h : Effect s i t) (hi : i ≠ .decodes) : KeepsOut s t := by
  cases h with
  | streamed => exact absurd rfl hi
  | aborted => exact absurd rfl hi
  | filled => exact sliceFilled_keepsOut _ _ _ _ _
  | encoded => exact encodeDone_keepsOut
  | _ => exact fun _ => rfl

theorem Effect.keepsPacket (h : Effect s i t) (hpload : i ≠ .pload) (hdecode1 : i ≠ .decode1) :
    KeepsPacket s t := by
  cases h with
  | loaded => exact absurd rfl hpload
  | decoded => exact absurd rfl hdecode1
  | _ => exact ⟨rfl, rfl, rfl, rfl, rfl⟩

theorem Effect.keepsIdentity (h : Effect s i t) (hi : i ≠ .decode1) :
    t.pkKind = s.pkKind ∧ t.pkDev = s.pkDev ∧ t.pkTs = s.pkTs := by
  cases h with
  | decoded => exact absurd rfl hi
  | _ => exact ⟨rfl, rfl, rfl⟩

end

/-! ### `STATUS` (R26, R186) -/

theorem errorCode_known (err : CmdError) : (errorCode err).toNat ≤ 8 ∨ (errorCode err).toNat = 15 := by
  cases err <;> simp [errorCode]

theorem Ended.status_toNat {s t : State} (h : Ended s t) : t.status.toNat ≤ 8 ∨ t.status.toNat = 15 := by
  obtain hok | ⟨err, hcode⟩ := h.status_known
  · exact .inl (by rw [hok]; decide)
  · exact hcode ▸ errorCode_known err

/-- A byte below 16 has no bit above bit 3. -/
theorem highBits_eq_zero {v : Byte} (h : v.toNat < 16) : v.extractLsb' 4 4 = 0#4 := by
  refine BitVec.eq_of_toNat_eq ?_
  rw [BitVec.extractLsb'_toNat, Nat.shiftRight_eq_div_pow, Nat.div_eq_of_lt h]
  rfl

theorem Ended.statusForm {s t : State} (h : Ended s t) : StatusForm t :=
  ⟨by simpa [statusLegal] using h.status_toNat, h.errors_zero, h.results_zero⟩

/-- Only a write of `CMD` and a reset write `STATUS`. -/
theorem hostMove_status {m : HostMove} {s t : State} (hcmd : ∀ v, m ≠ .set .cmd v) (hreset : m ≠ .reset)
    (h : hostMove m s = .next t) : t.status = s.status := by
  cases m with
  | set r v =>
    have hr : r ≠ .cmd := fun hr => hcmd v (hr ▸ rfl)
    cases (hostMove_set_of_ne hr v s).symm.trans h
    exact writeReg_status r v s
  | reset => exact absurd rfl hreset
  | _ => cases h; rfl

/-! ### Queries (R57) -/

/-- A command reads the cleared state only, so it does the same on states that agree when cleared. -/
theorem exec_congr {s t : State} (h : clearResults t = clearResults s) (i : Instr) :
    exec i t = exec i s := by
  rw [← exec_clearResults, h, exec_clearResults]

/-- A query writes result and error registers only. -/
theorem Effect.clearResults_of_query {i : Instr} {s t : State} (h : Effect s i t)
    (hi : i = .devchk ∨ i = .crc16 ∨ i = .encsize) : clearResults t = clearResults s := by
  cases h with
  | endedEarly => rfl
  | answered => rfl
  | filled h => rcases h with rfl | rfl <;> simp at hi
  | spoiled h => rcases h with rfl | rfl <;> simp at hi
  | _ => simp at hi

/-! ### The memories keep their canonical form (R30, R31) -/

section
variable {s : State}

theorem writeBytes_memoriesWf {off : Nat} {bs : List Byte} (h : MemoriesWf s)
    (hin : off + bs.length ≤ s.chip.bufCap) : MemoriesWf (writeBytes off bs s) := by
  obtain ⟨hbuf, hbelow, hout⟩ := h
  exact ⟨memSetFrom_wf _ _ hbuf, memSetFrom_below _ _ hin hbelow, hout⟩

theorem scramble_memoriesWf (e : Env) {off n : Nat} (h : MemoriesWf s) (hin : off + n ≤ s.chip.bufCap) :
    MemoriesWf (scramble e off n s) := by
  obtain ⟨hbuf, hbelow, hout⟩ := h
  exact ⟨memSetFrom_wf _ _ hbuf, memSetFrom_below _ _ (by rwa [anyBytes_length]) hbelow, hout⟩

theorem writePackets_memoriesWf (e : Env) {pkts : List Packet} (h : MemoriesWf s)
    (hin : pkts.length ≤ s.chip.outSlots) : MemoriesWf (writePackets e pkts s) := by
  obtain ⟨hbuf, hbelow, hout, houtBelow⟩ := h
  exact ⟨hbuf, hbelow, memSetFrom_wf _ _ hout,
    memSetFrom_below _ _ (by rwa [packetSlots_length, Nat.zero_add]) houtBelow⟩

theorem scrambleOut_memoriesWf (e : Env) {n : Nat} (h : MemoriesWf s) (hin : n ≤ s.chip.outSlots) :
    MemoriesWf (scrambleOut e n s) := by
  obtain ⟨hbuf, hbelow, hout, houtBelow⟩ := h
  exact ⟨hbuf, hbelow, memSetFrom_wf _ _ hout,
    memSetFrom_below _ _ (by rwa [anySlots_length, Nat.zero_add]) houtBelow⟩

theorem sliceFilled_memoriesWf (e : Env) {off n : Nat} {bs : List Byte} (h : MemoriesWf s)
    (hin : off + n ≤ s.chip.bufCap) (hbs : bs.length ≤ n) : MemoriesWf (sliceFilled e off n bs s) := by
  have hwritten : MemoriesWf (writeBytes off bs (clearResults s)) :=
    writeBytes_memoriesWf h (by rw [clearResults_chip]; omega)
  exact scramble_memoriesWf e hwritten (by rw [writeBytes_chip, clearResults_chip]; omega)

theorem encodeDone_memoriesWf (e : Env) (h : MemoriesWf s)
    (hin : s.aOff.toNat + s.aLen.toNat ≤ s.chip.bufCap) (hl : encSize s.pkPlen.toNat ≤ s.aLen.toNat) :
    MemoriesWf (encodeDone e s) := by
  have hfits := pkPacket_frames_length_le e s
  have hraw : MemoriesWf (writeBytes s.aOff.toNat (frameRaw e s.chip (pkPacket s)) s) :=
    writeBytes_memoriesWf h (by rw [frameRaw_pkPacket_length]; omega)
  rw [encodeDone_eq_sliceFilled]
  exact sliceFilled_memoriesWf e hraw (by rw [writeBytes_chip]; omega) (by omega)

end

theorem Effect.memoriesWf {i : Instr} {s t : State} (h : Effect s i t) (hs : MemoriesWf s) :
    MemoriesWf t := by
  have hclear : MemoriesWf (clearResults s) := hs
  cases h with
  | endedEarly => exact hs
  | answered => exact hs
  | loaded => exact hs
  | filled _ hin hbs => exact sliceFilled_memoriesWf _ hs hin hbs
  | encoded hin hl => exact encodeDone_memoriesWf _ hs hin hl
  | spoiled _ _ hin => exact scramble_memoriesWf _ hclear hin
  | decoded _ hin => exact scramble_memoriesWf _ hclear hin
  | @streamed cur pkts hin hcap hok =>
    have hcur := decodeStream_ok_consumed_le hok
    rw [sliceA_length] at hcur
    have hpkts : pkts.length ≤ s.chip.outSlots := (decodeStream_ok_packets_le hok).trans hcap
    exact scramble_memoriesWf _ (writePackets_memoriesWf Config.env hclear hpkts)
      (by rw [writePackets_chip, clearResults_chip]; omega)
  | @aborted err z k hin hcap herr =>
    obtain ⟨hz, -⟩ := List.getElem?_eq_some_iff.mp (decodeStream_err_delimiter herr)
    rw [sliceA_length] at hz
    exact scrambleOut_memoriesWf _
      (scramble_memoriesWf Config.env hclear (by rw [clearResults_chip]; omega)) hcap

/-! ### The results stay inside the memories (R65, R170) -/

section
variable {t : State}

theorem resultsInside_of_zero (h : t.rOff = 0#32 ∧ t.rLen = 0#32 ∧ t.rCnt = 0#32 ∧ t.rVal = 0#32) :
    ResultsInside t := by
  obtain ⟨hoff, hlen, hcnt, -⟩ := h
  simp [ResultsInside, hoff, hlen, hcnt]

theorem resultsInside_of_succeeds {off len cnt v : Nat} (h : Succeeds t off len cnt v)
    (hrange : off + len ≤ t.chip.bufCap) (hcnt : cnt ≤ t.chip.outSlots) : ResultsInside t := by
  obtain ⟨-, -, -, rfl, rfl, rfl, -⟩ := h
  exact ⟨hrange, hcnt⟩

end

theorem Effect.resultsInside {i : Instr} {s t : State} (h : Effect s i t) : ResultsInside t := by
  have hclear : ResultsInside (clearResults s) := resultsInside_of_zero (by simp)
  cases h with
  | @filled _ off n bs _ hin hbs =>
    obtain ⟨-, hcap⟩ := bufCap_bounds s.chip
    exact resultsInside_of_succeeds (sliceFilled_succeeds _ s off n bs (by omega) (by omega))
      (show off + bs.length ≤ s.chip.bufCap by omega) (Nat.zero_le _)
  | encoded hin hl =>
    have hfits := pkPacket_frames_length_le Config.env s
    rw [wireFrame_length] at hfits
    exact resultsInside_of_succeeds (encodeDone_succeeds hin hl)
      (show _ ≤ s.chip.bufCap by omega) (Nat.zero_le _)
  | @streamed cur pkts hin hcap hok =>
    have hcur := decodeStream_ok_consumed_le hok
    rw [sliceA_length] at hcur
    exact resultsInside_of_succeeds (decodesDone_succeeds hin hok)
      (show s.aOff.toNat + cur + (s.aLen.toNat - cur) ≤ s.chip.bufCap by omega)
      (show _ ≤ s.chip.outSlots from (decodeStream_ok_packets_le hok).trans hcap)
  | _ => exact hclear

/-! ### The invariant (R26, R30, R31, R65) -/

/-- A command establishes the forms of the results and of `STATUS`, and keeps that of the memories. -/
theorem exec_inv {i : Instr} {s t : State} (hs : MemoriesWf s) (h : exec i s = .next t) : Inv t :=
  ⟨(effect_of_exec h).memoriesWf hs, (effect_of_exec h).resultsInside, (ended_of_exec h).statusForm⟩

theorem rejected_inv {s : State} (hs : MemoriesWf s) (err : CmdError) : Inv (rejected err s) :=
  ⟨hs, resultsInside_of_zero (by simp), (ended_rejected err s).statusForm⟩

theorem writeReg_inv {s : State} (hs : Inv s) (r : Reg) (v : Nat) : Inv (writeReg r v s) := by
  simpa only [Inv, MemoriesWf, ResultsInside, StatusForm, writeReg_buf, writeReg_out, writeReg_chip,
    writeReg_rOff, writeReg_rLen, writeReg_rCnt, writeReg_rVal, writeReg_status, writeReg_eA,
    writeReg_eB] using hs

theorem commandWrite_inv {v : Nat} {s t : State} (hs : Inv s) (h : commandWrite v s = .next t) : Inv t := by
  obtain ⟨hmemories, -⟩ := writeReg_inv hs .cmd v
  unfold commandWrite at h
  split at h
  · exact exec_inv hmemories h
  · cases h
    exact rejected_inv hmemories _

theorem pokeBytes_inv {s : State} (hs : Inv s) (addr : Nat) (bytes : List Byte) :
    Inv (pokeBytes addr bytes s) := by
  obtain ⟨⟨hbuf, hbelow, hout⟩, hrest⟩ := hs
  obtain ⟨hbuf', hbelow'⟩ := pokeBytes_wf addr bytes hbuf hbelow
  exact ⟨⟨hbuf', hbelow', hout⟩, hrest⟩

/-- After a reset no cell is listed and every register reads 0. -/
theorem afterReset_inv (e : Env) (c : Chip) (k : Nat) : Inv (State.afterReset e c k) := by
  refine ⟨⟨.nil, fun _ h => absurd h List.not_mem_nil, .nil, fun _ h => absurd h List.not_mem_nil⟩,
    resultsInside_of_zero ⟨rfl, rfl, rfl, rfl⟩, rfl, fun _ => ⟨rfl, rfl⟩, fun h => absurd rfl h⟩

theorem hostMove_inv {m : HostMove} {s t : State} (hs : Inv s) (h : hostMove m s = .next t) : Inv t := by
  cases m with
  | set r v =>
    by_cases hr : r = .cmd
    · subst hr
      exact commandWrite_inv hs h
    · cases (hostMove_set_of_ne hr v s).symm.trans h
      exact writeReg_inv hs r v
  | poke addr bytes => cases h; exact pokeBytes_inv hs addr bytes
  | reset => cases h; exact afterReset_inv Config.env s.chip (s.resets + 1)
  | _ => cases h; exact hs

theorem step_inv {s t : State} (hs : Inv s) (h : step s = .next t) : Inv t := by
  cases hmoves : s.moves with
  | nil => cases (step_of_no_moves hmoves).symm.trans h; exact hs
  | cons m rest =>
    have hs' : Inv { s with moves := rest } := hs
    exact hostMove_inv hs' ((step_of_moves hmoves).symm.trans h)

/-! ### The statements -/

/-- Settles O34: a command establishes the invariant from memories in canonical form, and every other move of
the host keeps it. -/
theorem stepKeepsInv : Obligations.StepKeepsInv := fun _ _ => step_inv

/-- Settles O35, which holds after every reset event of every machine. -/
theorem resetHasInv : Obligations.ResetHasInv := afterReset_inv _ _ _

/-- Settles O27: a command ends with `Ok` or a code of the table, all below 16. -/
theorem statusHoldsOnlyKnownCodes : Obligations.StatusHoldsOnlyKnownCodes := by
  refine ⟨fun i s t h => ?_, fun m s t hcmd hreset => hostMove_status hcmd hreset⟩
  have hcode := (ended_of_exec h).status_toNat
  exact ⟨highBits_eq_zero (by omega), hcode⟩

/-- Settles O28, by how every command ends. -/
theorem noCommandWritesAnOperandRegister : Obligations.NoCommandWritesAnOperandRegister :=
  fun _ _ _ h => (ended_of_exec h).keeps

/-- Settles O29: a command fails by being rejected, or by a frame error, which is no operand or size error. -/
theorem failedCommandKeepsThePacketRegister : Obligations.FailedCommandKeepsThePacketRegister :=
  fun _ _ _ h => (effect_of_exec h).failed_keeps

/-- Settles O31, effect by effect. -/
theorem onlyDecodesWritesOutAndOnlyPloadAndDecode1WritePacket :
    Obligations.OnlyDecodesWritesOutAndOnlyPloadAndDecode1WritePacket := by
  intro i s t h
  have heffect := effect_of_exec h
  refine ⟨heffect.keepsOut, heffect.keepsIdentity, fun hpload hdecode1 => ?_⟩
  obtain ⟨-, -, -, hpacket⟩ := heffect.keepsPacket hpload hdecode1
  exact hpacket

/-- Settles O33: a query changes result and error registers only, which no command sees. -/
theorem queriesAreIdempotent : Obligations.QueriesAreIdempotent := by
  intro i s t hi h
  rw [exec_congr ((effect_of_exec h).clearResults_of_query hi)]
  exact h

end Sys2Proof.Machine

/-! PROOFS of the statements on what a command leaves for the next one (`44_stream_sync.md` section 2,
`43_deframer.md` section 3, `10_state.md` section 5): the rest of a stream, the loopback of a frame, and that
results depend on inputs alone. -/

namespace Sys2Proof.Machine

/-! ### The rest of a stream (R172, R173) -/

theorem readBytes_drop (e : Env) (s : State) (off n k : Nat) :
    (readBytes e s off n).drop k = readBytes e s (off + k) (n - k) := by
  by_cases hk : k ≤ n
  · have hsplit := readBytes_append e s off k (n - k)
    rw [Nat.add_sub_cancel' hk] at hsplit
    rw [hsplit, List.drop_left' (readBytes_length ..)]
  · rw [List.drop_eq_nil_of_le (by rw [readBytes_length]; omega), Nat.sub_eq_zero_of_le (by omega)]
    rfl

/-- What follows a range that alone was written is the same as before. -/
theorem readBytes_of_keepsBufOutside {s t : State} {off n k m : Nat} (h : KeepsBufOutside s t off n)
    (hk : off + n ≤ k) : readBytes Config.env t k m = readBytes Config.env s k m :=
  readBytes_congr _ fun a ha _ => h a (.inr (hk.trans ha))

section
variable {s : State}

theorem readOut_decodesDone_outside (e : Env) (cur : Nat) {pkts : List Packet} {i : Nat}
    (hi : pkts.length ≤ i) : readOut e (decodesDone e s cur pkts) i = readOut e s i := by
  rw [readOut_decodesDone, readOut_writePackets, dif_neg hi.not_gt, readOut_clearResults]

theorem readOut_decodesFailed_outside (e : Env) (err : CmdError) (z : Nat) {i : Nat}
    (hi : s.outCap.toNat ≤ i) : readOut e (decodesFailed e s err z) i = readOut e s i := by
  rw [decodesFailed, readOut_raise, readOut_scrambleOut_outside e _ hi, readOut_scramble,
    readOut_clearResults]

/-- The bytes of slice A from the cursor on are as they were. -/
theorem readBytes_decodesDone_rest (cur : Nat) (pkts : List Packet) :
    readBytes Config.env (decodesDone Config.env s cur pkts) (s.aOff.toNat + cur) (s.aLen.toNat - cur) =
      (sliceA Config.env s).drop cur := by
  rw [readBytes_of_keepsBufOutside (decodesDone_keepsBufOutside cur pkts) le_rfl, sliceA, readBytes_drop]

/-- They are the returned range. -/
theorem readBytes_decodesDone {cur : Nat} {pkts : List Packet}
    (hin : s.aOff.toNat + s.aLen.toNat ≤ s.chip.bufCap)
    (h : decodeStream Config.env s.chip (sliceA Config.env s) s.outCap.toNat = .ok cur pkts) :
    readBytes Config.env (decodesDone Config.env s cur pkts) (decodesDone Config.env s cur pkts).rOff.toNat
      (decodesDone Config.env s cur pkts).rLen.toNat = (sliceA Config.env s).drop cur := by
  obtain ⟨-, -, -, hoff, hlen, -⟩ := decodesDone_succeeds hin h
  rw [hoff, hlen, readBytes_decodesDone_rest]

/-- The failing frame's delimiter and what follows it are as they were. -/
theorem sliceA_decodesFailed_drop (err : CmdError) (z : Nat) :
    (sliceA Config.env (decodesFailed Config.env s err z)).drop z = (sliceA Config.env s).drop z := by
  have hkeeps := decodesFailed_keepsBufOutside (s := s) err z
  rw [sliceA, sliceA, readBytes_drop, readBytes_drop]
  exact readBytes_of_keepsBufOutside hkeeps le_rfl

end

/-! ### The loopback of a frame (R156) -/

/-- An assigned code fits into the five bits that a frame carries. -/
theorem setWidth_extractLsb'_of_devAssigned {c : Chip} {d : Byte} (h : devAssigned c d = true) :
    (d.extractLsb' 0 5).setWidth 8 = d := by
  have hlt : d.toNat < 2 ^ 5 := by
    obtain hle | ⟨heq, -⟩ := (devAssigned_iff c d).mp h <;> omega
  refine BitVec.eq_of_toNat_eq ?_
  rw [BitVec.toNat_setWidth, BitVec.extractLsb'_toNat, Nat.shiftRight_zero, Nat.mod_eq_of_lt hlt,
    Nat.mod_eq_of_lt d.isLt]

/-- The packet register holds a valid packet when its device code is assigned. -/
theorem pkPacket_valid {s : State} (h : devAssigned s.chip s.pkDev = true) :
    ValidPacket s.chip (pkPacket s) := by
  have hlen : (pkPacket s).payload.length = s.pkPlen.toNat := pkPayload_length s
  have := s.pkPlen.isLt
  refine ⟨by omega, ?_⟩
  rwa [pkPacket, setWidth_extractLsb'_of_devAssigned h]

/-- `DECODE1` on a slice that holds the wire frame of a valid packet puts it into the packet register. -/
theorem decode1_of_wireFrame {s : State} {p : Packet} (hin : s.aOff.toNat + s.aLen.toNat ≤ s.chip.bufCap)
    (hp : ValidPacket s.chip p) (hslice : sliceA Config.env s = wireFrame Config.env s.chip p) :
    ∃ u, exec .decode1 s = .next u ∧ u.status = 0#8 ∧ u.pkKind = p.kind ∧
      u.pkDev = p.dev.setWidth 8 ∧ u.pkTs = p.ts ∧ u.pkPlen.toNat = p.payload.length ∧
      pkPayload u = p.payload := by
  have hdecode : decodeFrame Config.env s.chip (sliceA Config.env s) = .ok p := by
    rw [hslice, wireFrame, decodeFrame_stuff_terminated, parseFrame_frameRaw _ _ _ hp]
  obtain ⟨-, hspec⟩ := decode1RecoversThePacket
  obtain ⟨hok, -⟩ := hspec s
  obtain ⟨u, hexec, ⟨hstatus, -⟩, hkind, hdev, hts, hplen, hpayload, -⟩ := hok p hin hdecode
  exact ⟨u, hexec, hstatus, hkind, hdev, hts, hplen, hpayload⟩

/-- What the host does between `ENCODE` and `DECODE1`: it writes the identity registers as it likes, and
points slice A at the returned range. -/
def retarget (k d ts : Nat) (t : State) : State :=
  writeReg .aLen t.rLen.toNat <| writeReg .aOff t.rOff.toNat <|
    writeReg .pkTs ts <| writeReg .pkDev d <| writeReg .pkKind k t

section
variable (k d ts : Nat) (t : State)

theorem retarget_aOff : (retarget k d ts t).aOff = t.rOff := by simp [retarget, writeReg]

theorem retarget_aLen : (retarget k d ts t).aLen = t.rLen := by simp [retarget, writeReg]

theorem retarget_chip : (retarget k d ts t).chip = t.chip := by simp [retarget]

/-- Slice A is then the returned range. -/
theorem sliceA_retarget (e : Env) :
    sliceA e (retarget k d ts t) = readBytes e t t.rOff.toNat t.rLen.toNat := by
  rw [sliceA, retarget_aOff, retarget_aLen]
  exact readBytes_congr e fun _ _ _ => by simp [retarget]

end

/-! ### The statements -/

/-- Settles O22: the packets take the first slots, and slice A is written before the cursor or the failing
frame's delimiter only. -/
theorem decodesKeepsTheRest : Obligations.DecodesKeepsTheRest := by
  refine fun s hin hcap => ⟨fun cur pkts hok => ?_, fun err z k herr => ?_⟩
  · exact ⟨_, (exec_decodes s).trans (congrArg _ (decodesCmd_of_ok hin hcap hok)),
      fun _ => readOut_decodesDone_outside _ cur, readBytes_decodesDone hin hok⟩
  · exact ⟨_, (exec_decodes s).trans (congrArg _ (decodesCmd_of_err hin hcap herr)),
      fun _ => readOut_decodesFailed_outside _ err z, sliceA_decodesFailed_drop err z⟩

/-- Settles O58: the returned range holds the wire frame of the packet register, whose packet is valid and
survives framing. -/
theorem encodeThenDecode1Loopback : Obligations.EncodeThenDecode1Loopback := by
  intro s t k d ts hin hdev hl hencode
  obtain rfl : encodeDone Config.env s = t := by
    cases ((exec_encode s).trans (congrArg _ (encodeCmd_of_fits hin hdev hl))).symm.trans hencode
    rfl
  obtain ⟨-, -, -, hoff, hlen, -⟩ := encodeDone_succeeds (e := Config.env) hin hl
  have hfits := pkPacket_frames_length_le Config.env s
  rw [wireFrame_length] at hfits
  have hchip : (retarget k d ts (encodeDone Config.env s)).chip = s.chip := retarget_chip ..
  have hslice : sliceA Config.env (retarget k d ts (encodeDone Config.env s)) =
      wireFrame Config.env s.chip (pkPacket s) := by
    rw [sliceA_retarget, hoff, hlen, readBytes_encodeDone_wireFrame, wireFrame]
  obtain ⟨u, hexec, hstatus, hkind, hdevOut, hts, hplen, hpayload⟩ :=
    decode1_of_wireFrame (s := retarget k d ts (encodeDone Config.env s)) (p := pkPacket s)
      (by rw [retarget_aOff, retarget_aLen, hoff, hlen, hchip]; omega)
      (by rw [hchip]; exact pkPacket_valid hdev) (by rw [hslice, hchip])
  exact ⟨u, hexec, hstatus, hkind, hdevOut.trans (setWidth_extractLsb'_of_devAssigned hdev), hts,
    BitVec.eq_of_toNat_eq (hplen.trans (pkPayload_length s)), hpayload⟩

end Sys2Proof.Machine

/-! PROOF of the statement that the block has no hidden state (`10_state.md` section 5): two states with the
same inputs take the same branch of a command, which ends on both with the same results. -/

namespace Sys2Proof.Machine

/-! ### The same results -/

/-- The same packet register, payload bytes up to the length. -/
abbrev SamePacket (t t' : State) : Prop :=
  t'.pkKind = t.pkKind ∧ t'.pkDev = t.pkDev ∧ t'.pkTs = t.pkTs ∧ t'.pkPlen = t.pkPlen ∧
  pkPayload t' = pkPayload t

/-- What a host can see of how a command ended: `STATUS`, the error, result and packet registers, the
returned range and the returned slots. -/
abbrev SameResults (t t' : State) : Prop :=
  t'.status = t.status ∧ t'.eA = t.eA ∧ t'.eB = t.eB ∧ t'.rOff = t.rOff ∧ t'.rLen = t.rLen ∧
  t'.rCnt = t.rCnt ∧ t'.rVal = t.rVal ∧ t'.pkKind = t.pkKind ∧ t'.pkDev = t.pkDev ∧
  t'.pkTs = t.pkTs ∧ t'.pkPlen = t.pkPlen ∧ pkPayload t' = pkPayload t ∧
  readBytes Config.env t' t'.rOff.toNat t'.rLen.toNat =
    readBytes Config.env t t.rOff.toNat t.rLen.toNat ∧
  ∀ j, j < t.rCnt.toNat → slotPacket (readOut Config.env t' j) = slotPacket (readOut Config.env t j)

section
variable {t t' : State}

/-- Two successes with the same values, the same bytes in the range and the same packets in the slots. -/
theorem sameResults_of_succeeds {off len cnt v : Nat} (h : Succeeds t off len cnt v)
    (h' : Succeeds t' off len cnt v) (hpacket : SamePacket t t')
    (hbytes : readBytes Config.env t' off len = readBytes Config.env t off len)
    (hslots : ∀ j, j < cnt →
      slotPacket (readOut Config.env t' j) = slotPacket (readOut Config.env t j)) :
    SameResults t t' := by
  obtain ⟨hstatus, heA, heB, rfl, rfl, rfl, rfl⟩ := h
  obtain ⟨hstatus', heA', heB', hoff, hlen, hcnt, hval⟩ := h'
  obtain ⟨hkind, hdev, hts, hplen, hpayload⟩ := hpacket
  exact ⟨hstatus'.trans hstatus.symm, heA'.trans heA.symm, heB'.trans heB.symm, BitVec.eq_of_toNat_eq hoff,
    BitVec.eq_of_toNat_eq hlen, BitVec.eq_of_toNat_eq hcnt, BitVec.eq_of_toNat_eq hval, hkind, hdev, hts,
    hplen, hpayload, by rw [hoff, hlen, hbytes], hslots⟩

/-- Two failures by the same error, which return no byte and no slot. -/
theorem sameResults_of_failsBy {err : CmdError} (h : FailsBy t err) (h' : FailsBy t' err)
    (hpacket : SamePacket t t') : SameResults t t' := by
  obtain ⟨hstatus, heA, heB, hoff, hlen, hcnt, hval⟩ := h
  obtain ⟨hstatus', heA', heB', hoff', hlen', hcnt', hval'⟩ := h'
  obtain ⟨hkind, hdev, hts, hplen, hpayload⟩ := hpacket
  refine ⟨hstatus'.trans hstatus.symm, heA'.trans heA.symm, heB'.trans heB.symm, hoff'.trans hoff.symm,
    hlen'.trans hlen.symm, hcnt'.trans hcnt.symm, hval'.trans hval.symm, hkind, hdev, hts, hplen, hpayload,
    ?_, fun j hj => ?_⟩
  · rw [hlen, hlen']
    rfl
  · rw [hcnt] at hj
    exact absurd hj (Nat.not_lt_zero j)

end

/-! ### The same inputs -/

section
variable {s s' : State}

theorem SameInputs.samePacket (h : SameInputs s s') : SamePacket s s' := by
  obtain ⟨-, -, -, -, -, -, hkind, hdev, hts, hplen, hpayload, -⟩ := h
  exact ⟨hkind, hdev, hts, hplen, hpayload⟩

/-- Slice A holds the same bytes when it ends inside `BUF`. -/
theorem SameInputs.sliceA_eq (h : SameInputs s s') (hin : s.aOff.toNat + s.aLen.toNat ≤ s.chip.bufCap) :
    sliceA Config.env s' = sliceA Config.env s := by
  obtain ⟨-, haOff, haLen, -, -, -, -, -, -, -, -, hbuf⟩ := h
  rw [sliceA, haOff, haLen]
  exact readBytes_congr _ fun a _ ha => hbuf a (by omega)

theorem SameInputs.pkPacket_eq (h : SameInputs s s') : pkPacket s' = pkPacket s := by
  obtain ⟨hkind, hdev, hts, -, hpayload⟩ := h.samePacket
  rw [pkPacket, hkind, hdev, hts, hpayload, pkPacket]

/-! ### Each way to end, on both states -/

theorem rejected_sameResults (h : SameInputs s s') (err : CmdError) :
    SameResults (rejected err s) (rejected err s') :=
  sameResults_of_failsBy (err := err) (by simp [FailsBy]) (by simp [FailsBy]) h.samePacket

theorem setVal_sameResults (h : SameInputs s s') {v : Nat} (hv : v < 2 ^ 32) :
    SameResults (setVal v (clearResults s)) (setVal v (clearResults s')) :=
  sameResults_of_succeeds (setVal_succeeds hv s) (setVal_succeeds hv s') h.samePacket rfl
    fun j hj => absurd hj (Nat.not_lt_zero j)

theorem spoiled_sameResults (h : SameInputs s s') (err : CmdError) (off n : Nat) :
    SameResults (raise err (scramble Config.env off n (clearResults s)))
      (raise err (scramble Config.env off n (clearResults s'))) :=
  sameResults_of_failsBy (err := err) (by simp [FailsBy]) (by simp [FailsBy]) h.samePacket

theorem loadPayload_sameResults (h : SameInputs s s') {bs : List Byte} (hbs : bs.length ≤ 255) :
    SameResults (loadPayload Config.env bs (clearResults s)) (loadPayload Config.env bs (clearResults s')) := by
  obtain ⟨hkind, hdev, hts, -⟩ := h.samePacket
  refine sameResults_of_succeeds (clearResults_succeeds s) (clearResults_succeeds s')
    ⟨hkind, hdev, hts, rfl, ?_⟩ rfl fun j hj => absurd hj (Nat.not_lt_zero j)
  rw [pkPayload_loadPayload _ _ hbs, pkPayload_loadPayload _ _ hbs]

theorem setPacket_sameResults {p : Packet} (hp : p.payload.length ≤ 255) (off n : Nat) :
    SameResults (setPacket Config.env p (scramble Config.env off n (clearResults s)))
      (setPacket Config.env p (scramble Config.env off n (clearResults s'))) := by
  refine sameResults_of_succeeds (clearResults_succeeds s) (clearResults_succeeds s')
    ⟨rfl, rfl, rfl, rfl, ?_⟩ rfl fun j hj => absurd hj (Nat.not_lt_zero j)
  rw [pkPayload_setPacket _ _ hp, pkPayload_setPacket _ _ hp]

theorem sliceFilled_sameResults (h : SamePacket s s') {off n : Nat} {bs : List Byte} (hoff : off < 2 ^ 32)
    (hbs : bs.length < 2 ^ 32) :
    SameResults (sliceFilled Config.env off n bs s) (sliceFilled Config.env off n bs s') := by
  refine sameResults_of_succeeds (sliceFilled_succeeds _ s off n bs hoff hbs)
    (sliceFilled_succeeds _ s' off n bs hoff hbs) h ?_ fun j hj => absurd hj (Nat.not_lt_zero j)
  rw [readBytes_sliceFilled, readBytes_sliceFilled]

/-- Both return the wire frame of one and the same packet. -/
theorem encodeDone_sameResults (h : SameInputs s s') (hin : s.aOff.toNat + s.aLen.toNat ≤ s.chip.bufCap)
    (hl : encSize s.pkPlen.toNat ≤ s.aLen.toNat) :
    SameResults (encodeDone Config.env s) (encodeDone Config.env s') := by
  have ⟨hchip, haOff, haLen, _⟩ := h
  obtain ⟨-, -, -, hplen, -⟩ := h.samePacket
  have hdone' := encodeDone_succeeds (e := Config.env) (s := s') (by rwa [hchip, haOff, haLen])
    (by rwa [haLen, hplen])
  have hwire' := readBytes_encodeDone_wireFrame (e := Config.env) (s := s')
  rw [haOff, hplen, hchip, h.pkPacket_eq] at hdone' hwire'
  refine sameResults_of_succeeds (encodeDone_succeeds hin hl) hdone' h.samePacket ?_
    fun j hj => absurd hj (Nat.not_lt_zero j)
  rw [hwire', readBytes_encodeDone_wireFrame]

/-- Both return the same rest of slice A, and the packets of one and the same stream. -/
theorem decodesDone_sameResults (h : SameInputs s s') {cur : Nat} {pkts : List Packet}
    (hin : s.aOff.toNat + s.aLen.toNat ≤ s.chip.bufCap)
    (hok : decodeStream Config.env s.chip (sliceA Config.env s) s.outCap.toNat = .ok cur pkts) :
    SameResults (decodesDone Config.env s cur pkts) (decodesDone Config.env s' cur pkts) := by
  have ⟨hchip, haOff, haLen, _, _, houtCap, _⟩ := h
  have hok' : decodeStream Config.env s'.chip (sliceA Config.env s') s'.outCap.toNat = .ok cur pkts := by
    rwa [hchip, houtCap, h.sliceA_eq hin]
  have hdone' := decodesDone_succeeds (s := s') (by rwa [hchip, haOff, haLen]) hok'
  have hrest' := readBytes_decodesDone_rest (s := s') cur pkts
  rw [haOff, haLen] at hdone' hrest'
  refine sameResults_of_succeeds (decodesDone_succeeds hin hok) hdone' h.samePacket ?_ fun j hj => ?_
  · rw [hrest', readBytes_decodesDone_rest, h.sliceA_eq hin]
  · rw [slotPacket_decodesDone hok' hj, slotPacket_decodesDone hok hj]

/-! ### Each command, on both states -/

theorem pload_sameResults (h : SameInputs s s') :
    SameResults (pload Config.env s) (pload Config.env s') := by
  have ⟨hchip, haOff, haLen, _⟩ := h
  obtain ⟨hout, hs⟩ | ⟨hin, ⟨hlong, hs⟩ | ⟨hfits, hs⟩⟩ := pload_cases Config.env s <;> rw [hs]
  · rw [pload_of_outside (by rwa [hchip, haOff, haLen])]
    exact rejected_sameResults h _
  · rw [pload_of_tooLong (by rwa [hchip, haOff, haLen]) (by rwa [haLen]), haLen]
    exact rejected_sameResults h _
  · rw [pload_of_fits (by rwa [hchip, haOff, haLen]) (by rwa [haLen]), h.sliceA_eq hin]
    exact loadPayload_sameResults h (by rwa [sliceA_length])

theorem devchk_sameResults (h : SameInputs s s') : SameResults (devchk s) (devchk s') := by
  have ⟨hchip, _, _, _, _, _, _, hdev, _⟩ := h
  obtain ⟨hd, hs⟩ | ⟨hd, hs⟩ := devchk_cases s <;> rw [hs]
  · rw [devchk_of_unassigned (by rwa [hchip, hdev]), hdev]
    exact rejected_sameResults h _
  · rw [devchk_of_assigned (by rwa [hchip, hdev])]
    exact setVal_sameResults h (v := 0) (by decide)

theorem crc16Cmd_sameResults (h : SameInputs s s') :
    SameResults (crc16Cmd Config.env s) (crc16Cmd Config.env s') := by
  have ⟨hchip, haOff, haLen, _⟩ := h
  obtain ⟨hout, hs⟩ | ⟨hin, hs⟩ := crc16Cmd_cases Config.env s <;> rw [hs]
  · rw [crc16Cmd_of_outside (by rwa [hchip, haOff, haLen])]
    exact rejected_sameResults h _
  · rw [crc16Cmd_of_inside (by rwa [hchip, haOff, haLen]), h.sliceA_eq hin]
    exact setVal_sameResults h ((BitVec.isLt _).trans (by decide))

theorem stuffCmd_sameResults (h : SameInputs s s') :
    SameResults (stuffCmd Config.env s) (stuffCmd Config.env s') := by
  have ⟨hchip, haOff, haLen, hbOff, hbLen, _⟩ := h
  obtain ⟨ha, hs⟩ | ⟨ha, ⟨hb, hs⟩ | ⟨hb, ⟨ho, hs⟩ | ⟨ho, ⟨hl, hs⟩ | ⟨hl, hs⟩⟩⟩⟩ :=
    stuffCmd_cases Config.env s <;> rw [hs]
  · rw [stuffCmd_of_aOutside (by rwa [hchip, haOff, haLen])]
    exact rejected_sameResults h _
  · rw [stuffCmd_of_bOutside (by rwa [hchip, haOff, haLen]) (by rwa [hchip, hbOff, hbLen])]
    exact rejected_sameResults h _
  · rw [stuffCmd_of_overlap (by rwa [hchip, haOff, haLen]) (by rwa [hchip, hbOff, hbLen])
      (by rwa [slicesOverlap, haOff, haLen, hbOff, hbLen])]
    exact rejected_sameResults h _
  · rw [stuffCmd_of_tooSmall (by rwa [hchip, haOff, haLen]) (by rwa [hchip, hbOff, hbLen])
      (by rwa [slicesOverlap, haOff, haLen, hbOff, hbLen]) (by rwa [haLen, hbLen]), haLen, hbLen]
    exact rejected_sameResults h _
  · rw [stuffCmd_of_fits (by rwa [hchip, haOff, haLen]) (by rwa [hchip, hbOff, hbLen])
      (by rwa [slicesOverlap, haOff, haLen, hbOff, hbLen]) (by rwa [haLen, hbLen]), hbOff, hbLen,
      h.sliceA_eq ha, stuffDone_eq_sliceFilled]
    have hlen := stuff_length_le (sliceA Config.env s)
    rw [sliceA_length] at hlen
    exact sliceFilled_sameResults h.samePacket s.bOff.isLt ((hlen.trans hl).trans_lt s.bLen.isLt)

theorem unstuffCmd_sameResults (h : SameInputs s s') :
    SameResults (unstuffCmd Config.env s) (unstuffCmd Config.env s') := by
  have ⟨hchip, haOff, haLen, _⟩ := h
  obtain ⟨hout, hs⟩ | ⟨hin, ⟨hu, hs⟩ | ⟨r, hu, hs⟩⟩ := unstuffCmd_cases Config.env s <;> rw [hs]
  · rw [unstuffCmd_of_outside (by rwa [hchip, haOff, haLen])]
    exact rejected_sameResults h _
  · rw [unstuffCmd_of_none (by rwa [hchip, haOff, haLen]) (by rwa [h.sliceA_eq hin]), haOff, haLen]
    exact spoiled_sameResults h _ _ _
  · rw [unstuffCmd_of_some (by rwa [hchip, haOff, haLen]) (by rwa [h.sliceA_eq hin]), haOff, haLen,
      unstuffDone_eq_sliceFilled]
    exact sliceFilled_sameResults h.samePacket s.aOff.isLt
      ((unstuff_sliceA_length_le hu).trans_lt s.aLen.isLt)

theorem encsizeCmd_sameResults (h : SameInputs s s') : SameResults (encsizeCmd s) (encsizeCmd s') := by
  obtain ⟨-, -, -, hplen, -⟩ := h.samePacket
  rw [encsizeCmd_eq, encsizeCmd_eq, hplen]
  exact setVal_sameResults h (encSize_pkPlen_lt s)

theorem encodeCmd_sameResults (h : SameInputs s s') :
    SameResults (encodeCmd Config.env s) (encodeCmd Config.env s') := by
  have ⟨hchip, haOff, haLen, _⟩ := h
  obtain ⟨-, hdev, -, hplen, -⟩ := h.samePacket
  obtain ⟨hout, hs⟩ | ⟨hin, ⟨hd, hs⟩ | ⟨hd, ⟨hl, hs⟩ | ⟨hl, hs⟩⟩⟩ := encodeCmd_cases Config.env s <;>
    rw [hs]
  · rw [encodeCmd_of_outside (by rwa [hchip, haOff, haLen])]
    exact rejected_sameResults h _
  · rw [encodeCmd_of_unassigned (by rwa [hchip, haOff, haLen]) (by rwa [hchip, hdev])]
    exact rejected_sameResults h _
  · rw [encodeCmd_of_tooSmall (by rwa [hchip, haOff, haLen]) (by rwa [hchip, hdev])
      (by rwa [haLen, hplen]), haLen, hplen]
    exact rejected_sameResults h _
  · rw [encodeCmd_of_fits (by rwa [hchip, haOff, haLen]) (by rwa [hchip, hdev]) (by rwa [haLen, hplen])]
    exact encodeDone_sameResults h hin hl

theorem decode1Cmd_sameResults (h : SameInputs s s') :
    SameResults (decode1Cmd Config.env s) (decode1Cmd Config.env s') := by
  have ⟨hchip, haOff, haLen, _⟩ := h
  obtain ⟨hout, hs⟩ | ⟨hin, ⟨err, hdec, hs⟩ | ⟨p, hdec, hs⟩⟩ := decode1Cmd_cases Config.env s <;> rw [hs]
  · rw [decode1Cmd_of_outside (by rwa [hchip, haOff, haLen])]
    exact rejected_sameResults h _
  · rw [decode1Cmd_of_error (by rwa [hchip, haOff, haLen]) (by rwa [hchip, h.sliceA_eq hin]), haOff, haLen]
    exact spoiled_sameResults h _ _ _
  · rw [decode1Cmd_of_ok (by rwa [hchip, haOff, haLen]) (by rwa [hchip, h.sliceA_eq hin]), haOff, haLen]
    exact setPacket_sameResults (decodeFrame_payload_length_le hdec) _ _

theorem decodesCmd_sameResults (h : SameInputs s s') :
    SameResults (decodesCmd Config.env s) (decodesCmd Config.env s') := by
  have ⟨hchip, haOff, haLen, _, _, houtCap, _⟩ := h
  obtain ⟨hout, hs⟩ | ⟨hin, ⟨hcap, hs⟩ | ⟨hcap, ⟨err, z, k, hdec, hs⟩ | ⟨cur, pkts, hdec, hs⟩⟩⟩ :=
    decodesCmd_cases Config.env s <;> rw [hs]
  · rw [decodesCmd_of_outside (by rwa [hchip, haOff, haLen])]
    exact rejected_sameResults h _
  · rw [decodesCmd_of_overCapacity (by rwa [hchip, haOff, haLen]) (by rwa [hchip, houtCap])]
    exact rejected_sameResults h _
  · rw [decodesCmd_of_err (by rwa [hchip, haOff, haLen]) (by rwa [hchip, houtCap])
      (by rwa [hchip, houtCap, h.sliceA_eq hin])]
    exact sameResults_of_failsBy (decodesFailed_failsBy err z) (decodesFailed_failsBy err z) h.samePacket
  · rw [decodesCmd_of_ok (by rwa [hchip, haOff, haLen]) (by rwa [hchip, houtCap])
      (by rwa [hchip, houtCap, h.sliceA_eq hin])]
    exact decodesDone_sameResults h hin hdec

end

/-! ### The statement -/

/-- The results of a command on two states with the same inputs are the same. -/
theorem exec_sameResults {i : Instr} {s s' t t' : State} (h : SameInputs s s') (ht : exec i s = .next t)
    (ht' : exec i s' = .next t') : SameResults t t' := by
  cases i with
  | pload => cases ht; cases ht'; exact pload_sameResults h
  | devchk => cases ht; cases ht'; exact devchk_sameResults h
  | crc16 => cases ht; cases ht'; exact crc16Cmd_sameResults h
  | stuff => cases ht; cases ht'; exact stuffCmd_sameResults h
  | unstuff => cases ht; cases ht'; exact unstuffCmd_sameResults h
  | encsize => cases ht; cases ht'; exact encsizeCmd_sameResults h
  | encode => cases ht; cases ht'; exact encodeCmd_sameResults h
  | decode1 => cases ht; cases ht'; exact decode1Cmd_sameResults h
  | decodes => cases ht; cases ht'; exact decodesCmd_sameResults h

/-- Settles O32, command by command: every condition, written byte and result is one of the inputs'. -/
theorem resultsDependOnInputsOnly : Obligations.ResultsDependOnInputsOnly :=
  fun _ _ _ _ _ h ht ht' => exec_sameResults h ht ht'

end Sys2Proof.Machine
